-- ==== Sys2Proof/Word.lean ====
section
/-! DEFINITION. The word types of the block: its command word, its two storage widths, its bytes. -/

namespace Sys2Proof

/-- The command word `req_cmd` (30_encoding.md R80). -/
abbrev CmdWord := BitVec 32

/-- A GPR slot, FLAGS or IP (10_state.md R30). -/
abbrev Native := BitVec 64

/-- A vector slot, and the width of `req_wdata` and `rsp_rdata` (10_state.md R32; 00_scope.md R7). -/
abbrev Wide := BitVec 512

/-- A byte (20_memory.md R62). -/
abbrev Byte := BitVec 8

/-- The value of `rsp_status` (60_exceptions.md R182). -/
abbrev StatusCode := BitVec 3

end Sys2Proof
end

