-- ==== Sys2Proof/Machine/Fields.lean ====
section
/-! DEFINITION. Bit-field and byte-order helpers over one value of any width (00_scope.md R11; 20_memory.md R62). -/

namespace Sys2Proof.Machine

/-- `v[lo+len-1 : lo]` (00_scope.md R11). -/
def takeField {w : Nat} (v : BitVec w) (lo len : Nat) : BitVec len := v.extractLsb' lo len

/-- `v` with the len bits from bit lo replaced by d, every other bit kept: `v[w-1 : lo+len] ++ d ++ v[lo-1 : 0]`
(41_bit_access.md R141, 42_byte_access.md R151, 10_state.md R37). -/
def putField {w len : Nat} (v : BitVec w) (lo : Nat) (d : BitVec len) : BitVec w :=
  (v &&& ~~~((BitVec.allOnes len).setWidth w <<< lo)) ||| (d.setWidth w <<< lo)

/-- Bit 0 of byte j (20_memory.md R62: byte j is bits 8j+7 down to 8j). -/
def byteLo (j : Nat) : Nat := 8 * j

/-- Byte j of a value (20_memory.md R62). -/
def takeByte {w : Nat} (v : BitVec w) (j : Nat) : Byte := takeField v (byteLo j) 8

/-- The value with byte j replaced (20_memory.md R62). -/
def putByte {w : Nat} (v : BitVec w) (j : Nat) (d : Byte) : BitVec w := putField v (byteLo j) d

/-- The bytes of a value, byte 0 first, w/8 of them (20_memory.md R62). -/
def bytesOf {w : Nat} (v : BitVec w) : List Byte := (List.range (w / 8)).map (takeByte v)

/-- The value whose bytes these are, byte 0 first, zero above the last (20_memory.md R62). -/
def ofBytes (w : Nat) : List Byte → BitVec w
  | [] => 0
  | b :: bs => b.setWidth w ||| (ofBytes w bs <<< 8)

end Sys2Proof.Machine
end

