-- ==== Sys2Proof/Config.lean ====
section
/-! DEFINITION. What an implementation fixes, and the values the spec leaves open (00_scope.md R6; 93_implementation_defined.md I13). -/

namespace Sys2Proof.Config

/-- The reference value of the OPEN parameter NGPR (00_scope.md R6; D2). Only State.reset uses it:
DESIGN CHOICE (log 1), unsafe for a claim about State.reset alone, safe for a claim about every State. -/
def refNgpr : Nat := 16

/-- The reference value of the OPEN parameter NVEC (00_scope.md R6; D3). Only State.reset uses it:
DESIGN CHOICE (log 1), as for refNgpr. -/
def refNvec : Nat := 32

/-- The range of NGPR and of NVEC (00_scope.md R6): a slot equal to the count can then always be encoded
(30_encoding.md R85). -/
def countOk (n : Nat) : Bool := 1 ≤ n && n ≤ 255

/-- The identity of a block with these parameters (00_scope.md R2). -/
def identity (ngpr nvec : Nat) : String :=
  "cpulib-regfile-g" ++ toString ngpr ++ "-v" ++ toString nvec

/-- FREE VALUE: what rsp_status carries in a step with rsp_valid = 0, as a function of how many such steps came
before (93_implementation_defined.md I13: "any value"). No body, so nothing can be proved of it. Safe (log 5). -/
opaque freeStatus : Nat → StatusCode

/-- FREE VALUE: what rsp_rdata carries in a step with rsp_valid = 0, as freeStatus. Safe (log 5). -/
opaque freeRdata : Nat → Wide

end Sys2Proof.Config
end

