-- ==== Sys2Proof/Syntax.lean ====
section
/-! DEFINITION. The block's requests: the nine families and the seven operations of spec/opcode_table.json. -/

namespace Sys2Proof

/-- The four banks of storage (10_state.md R30). -/
inductive Bank where
  /-- The general-purpose registers, NGPR slots. -/
  | g
  /-- The flags register, one slot. -/
  | flags
  /-- The instruction pointer, one slot. -/
  | ip
  /-- The vector registers, NVEC slots. -/
  | v
deriving DecidableEq, Repr

/-- The nine register families; a family is a bank seen through one view width (10_state.md R33; 30_encoding.md R84). -/
inductive Family where
  | gpr64
  | gpr32
  | gpr16
  | gpr8
  | flags
  | ip
  | vec128
  | vec256
  | vec512
deriving DecidableEq, Repr

/-- The seven operations, one constructor per row of spec/opcode_table.json (30_encoding.md R83).
The write data is no part of the command word: it is read from the port when the operation runs (R88). -/
inductive Instr where
  /-- GET_BIT family, slot, bit index (R140). -/
  | getBit (f : Family) (slot idx : Nat)
  /-- SET_BIT family, slot, bit index (R141). -/
  | setBit (f : Family) (slot idx : Nat)
  /-- GET_BYTE family, slot, byte index (R150). -/
  | getByte (f : Family) (slot idx : Nat)
  /-- SET_BYTE family, slot, byte index (R151). -/
  | setByte (f : Family) (slot idx : Nat)
  /-- GET_VALUE family, slot (R160). -/
  | getValue (f : Family) (slot : Nat)
  /-- SET_VALUE family, slot (R161). -/
  | setValue (f : Family) (slot : Nat)
  /-- RESET (R170). -/
  | reset
deriving DecidableEq, Repr

end Sys2Proof
end

