-- ==== Sys2Proof/Machine/State.lean ====
section
/-! DEFINITION. The state of the block and of its port, the reasons a step could stop, and the state after reset. -/

namespace Sys2Proof.Machine

/-- The architectural state: exactly these four parts (10_state.md R30). NGPR and NVEC are the lengths of the two
banks (log 1); no operation changes them (R46). -/
structure RegisterFile where
  /-- G[0 .. NGPR-1] (R31). -/
  gpr : List Native
  /-- FLAGS, all 64 bits storage (R39). -/
  flags : Native
  /-- IP, storage only (R40). -/
  ip : Native
  /-- V[0 .. NVEC-1] (R32). -/
  vec : List Wide
deriving DecidableEq, Repr

/-- The input signals of one step (00_scope.md R7). -/
structure PortIn where
  rst : Bool
  reqValid : Bool
  reqCmd : CmdWord
  reqWdata : Wide
deriving DecidableEq, Repr

/-- The output signals of one step (00_scope.md R7). -/
structure PortOut where
  rspValid : Bool
  rspStatus : StatusCode
  rspRdata : Wide
deriving DecidableEq, Repr

/-- The block with its port. `regs` is the block's state; `input` is what its caller presents in the step to come and
`later` in the steps after that one (log 3); `output` is what the last step put on the port (log 4); `draws` counts
the free values drawn so far (log 5). -/
structure State where
  regs : RegisterFile
  input : PortIn
  later : List PortIn
  output : PortOut
  draws : Nat
deriving DecidableEq, Repr

/-- The four error kinds (60_exceptions.md R180). An error is answered on the port and stops nothing (R188; log 6). -/
inductive ErrorKind where
  /-- GET_BIT, SET_BIT, GET_BYTE, SET_BYTE and the value functions, for an index past the view (R183). -/
  | indexOutOfRange
  /-- Every access, for a slot past the family's count (R184). -/
  | invalidSlot
  /-- from_bytes only, for too many bytes; never on the port (R185). -/
  | sizeMismatch
  /-- A command word that decodes to no request (R186). -/
  | illegalRequest
deriving DecidableEq, Repr

/-- Why a step could stop the block: there is no such reason. Every failing request is answered and the block goes on
(60_exceptions.md R181, R188; log 6), so nothing raises a fault, which is safe and unsafe for no claim. -/
inductive Fault where
deriving DecidableEq, Repr

/-- Why the model could give an instruction no meaning. -/
inductive Refusal where
  /-- An operation of the table with no meaning in this model. No arm of exec answers it; safe if one did, since the
  run then ends. -/
  | notModelled (mnemonic : String)
deriving DecidableEq, Repr

/-- No request and no reset (00_scope.md R8). The command and the data of such a step are never read. -/
def PortIn.idle : PortIn := { rst := false, reqValid := false, reqCmd := 0, reqWdata := 0 }

/-- Every register at its reset value, for a block of ngpr GPR slots and nvec vector slots (10_state.md R48). -/
def RegisterFile.powerUp (ngpr nvec : Nat) : RegisterFile :=
  { gpr := List.replicate ngpr 0, flags := 0, ip := 0, vec := List.replicate nvec 0 }

/-- A block of ngpr GPR slots and nvec vector slots before its first step (70_reset_and_hazards.md R211), its port idle
and its outputs 0 (DESIGN CHOICE, log 4: the spec gives the wires no value before the first step). -/
def State.powerUp (ngpr nvec : Nat) : State :=
  { regs := .powerUp ngpr nvec, input := .idle, later := [],
    output := { rspValid := false, rspStatus := 0, rspRdata := 0 }, draws := 0 }

/-- The block right after reset, in the reference configuration (10_state.md R48; 00_scope.md R6; log 1). -/
def State.reset : State := .powerUp Config.refNgpr Config.refNvec

end Sys2Proof.Machine
end

