-- ==== Sys2Proof/Machine/Operands.lean ====
section
/-! DEFINITION. Families, views and operand assembly: which slot a request names, through which width, and how the
port's data words carry its operand and its result (10_state.md R33 to R37; 30_encoding.md R88, R90). -/

namespace Sys2Proof

/-- The width of a bank's slots (10_state.md R30). -/
abbrev Bank.width : Bank → Nat
  | .g => 64
  | .flags => 64
  | .ip => 64
  | .v => 512

/-- The bank a family addresses (10_state.md R33). -/
def Family.bank : Family → Bank
  | .gpr64 => .g
  | .gpr32 => .g
  | .gpr16 => .g
  | .gpr8 => .g
  | .flags => .flags
  | .ip => .ip
  | .vec128 => .v
  | .vec256 => .v
  | .vec512 => .v

/-- The alias width aw(f) (10_state.md R33). -/
def Family.aw : Family → Nat
  | .gpr64 => 64
  | .gpr32 => 32
  | .gpr16 => 16
  | .gpr8 => 8
  | .flags => 64
  | .ip => 64
  | .vec128 => 128
  | .vec256 => 256
  | .vec512 => 512

/-- The backing width bw(f) (10_state.md R33). -/
abbrev Family.bw (f : Family) : Nat := f.bank.width

/-- The full view of the slot that a family's view lies in (30_encoding.md R97). -/
def Family.full (f : Family) : Family :=
  match f.bank with
  | .g => .gpr64
  | .flags => .flags
  | .ip => .ip
  | .v => .vec512

end Sys2Proof

namespace Sys2Proof.Machine

/-- How many slots a bank has (10_state.md R30, R33). -/
def RegisterFile.slots (r : RegisterFile) : Bank → Nat
  | .g => r.gpr.length
  | .flags => 1
  | .ip => 1
  | .v => r.vec.length

/-- count(f) (10_state.md R33). -/
def RegisterFile.count (r : RegisterFile) (f : Family) : Nat := r.slots f.bank

/-- The backing slot n of a bank (10_state.md R33, R34). Every request checks the slot before it reads (R187); at a
slot past the bank's end this function gives 0, which no request observes (log 12). -/
def RegisterFile.read (r : RegisterFile) : (b : Bank) → Nat → BitVec b.width
  | .g, n => r.gpr.getD n 0
  | .flags, _ => r.flags
  | .ip, _ => r.ip
  | .v, n => r.vec.getD n 0

/-- The register file with backing slot n of a bank replaced (00_scope.md section 5, `Bank(f)[s] <- v`). -/
def RegisterFile.write (r : RegisterFile) : (b : Bank) → Nat → BitVec b.width → RegisterFile
  | .g, n, x => { r with gpr := r.gpr.set n x }
  | .flags, _, x => { r with flags := x }
  | .ip, _, x => { r with ip := x }
  | .v, n, x => { r with vec := r.vec.set n x }

/-- Bit i of view (f, n) is bit i of the backing slot (10_state.md R34). -/
def RegisterFile.viewBit (r : RegisterFile) (f : Family) (n i : Nat) : BitVec 1 :=
  takeField (r.read f.bank n) i 1

/-- Byte j of view (f, n) is bits 8j+7 down to 8j of the backing slot (10_state.md R35). -/
def RegisterFile.viewByte (r : RegisterFile) (f : Family) (n j : Nat) : Byte :=
  takeByte (r.read f.bank n) j

/-- AliasRead (10_state.md R36). -/
def RegisterFile.aliasRead (r : RegisterFile) (f : Family) (n : Nat) : BitVec f.aw :=
  takeField (r.read f.bank n) 0 f.aw

/-- The write of SET_BIT (41_bit_access.md R141): every other bit of the slot is kept. -/
def RegisterFile.setViewBit (r : RegisterFile) (f : Family) (n i : Nat) (b : BitVec 1) : RegisterFile :=
  r.write f.bank n (putField (r.read f.bank n) i b)

/-- The write of SET_BYTE (42_byte_access.md R151): every other byte of the slot is kept. -/
def RegisterFile.setViewByte (r : RegisterFile) (f : Family) (n j : Nat) (d : Byte) : RegisterFile :=
  r.write f.bank n (putByte (r.read f.bank n) j d)

/-- AliasWrite (10_state.md R37): the bits above the alias width are kept. -/
def RegisterFile.aliasWrite (r : RegisterFile) (f : Family) (n : Nat) (x : BitVec f.aw) : RegisterFile :=
  r.write f.bank n (putField (r.read f.bank n) 0 x)

/-- Every element of a block of this size at its reset value (10_state.md R48; 44_control.md R170). -/
def RegisterFile.zeroed (r : RegisterFile) : RegisterFile :=
  .powerUp r.gpr.length r.vec.length

/-- The data operand of SET_BIT: req_wdata[0] (30_encoding.md R88). -/
def bitOperand (wdata : Wide) : BitVec 1 := takeField wdata 0 1

/-- The data operand of SET_BYTE: req_wdata[7:0] (30_encoding.md R88). -/
def byteOperand (wdata : Wide) : Byte := takeField wdata 0 8

/-- The data operand of SET_VALUE: req_wdata[aw(f)-1:0] (30_encoding.md R88). -/
def valueOperand (f : Family) (wdata : Wide) : BitVec f.aw := takeField wdata 0 f.aw

/-- zext_512 of a result, for rsp_rdata (30_encoding.md R90). -/
def readData {w : Nat} (x : BitVec w) : Wide := x.setWidth 512

end Sys2Proof.Machine
end

