-- ==== Sys2Proof/Machine/Ops.lean ====
section
/-! DEFINITION. The operations every request is built from: the checks, the response, the raise, the reset, and the move
of the port to its next step (60_exceptions.md R182 to R194; 00_scope.md R8). -/

namespace Sys2Proof.Machine

/-- The status code of a request that succeeds (60_exceptions.md R182). -/
def okCode : StatusCode := 0

/-- The status code of an error (60_exceptions.md R182). -/
def ErrorKind.code : ErrorKind → StatusCode
  | .indexOutOfRange => 1
  | .invalidSlot => 2
  | .sizeMismatch => 3
  | .illegalRequest => 4

/-! ### Checks, in the order of 60_exceptions.md R187 -/

/-- The slot check, then the index check against the given limit (R183, R184, R187). -/
def State.checkIndexed (s : State) (f : Family) (slot idx limit : Nat) : Option ErrorKind :=
  if s.regs.count f ≤ slot then some .invalidSlot
  else if limit ≤ idx then some .indexOutOfRange
  else none

/-- The checks of GET_BIT and SET_BIT: the limit is the alias width (R183). -/
def State.checkBit (s : State) (f : Family) (slot idx : Nat) : Option ErrorKind :=
  s.checkIndexed f slot idx f.aw

/-- The checks of GET_BYTE and SET_BYTE: the limit is an eighth of the alias width (R183). -/
def State.checkByte (s : State) (f : Family) (slot idx : Nat) : Option ErrorKind :=
  s.checkIndexed f slot idx (f.aw / 8)

/-- The check of GET_VALUE and SET_VALUE, which have no index (R184). -/
def State.checkValue (s : State) (f : Family) (slot : Nat) : Option ErrorKind :=
  if s.regs.count f ≤ slot then some .invalidSlot else none

/-! ### Responses -/

/-- `respond` (00_scope.md section 5): status OK with this read data. -/
def State.respond (s : State) (d : Wide) : State :=
  { s with output := { rspValid := true, rspStatus := okCode, rspRdata := d } }

/-- `done` (00_scope.md section 5): status OK with read data 0. -/
def State.done (s : State) : State := s.respond 0

/-- `raise` (60_exceptions.md R188): the error's status with read data 0; no register is written. This is all that
an error does: it saves nothing, changes no mode and goes nowhere, so there is no return from it (R192; log 6). -/
def State.raise (s : State) (e : ErrorKind) : State :=
  { s with output := { rspValid := true, rspStatus := e.code, rspRdata := 0 } }

/-- A step with no response: rsp_valid = 0, and the other two outputs are free values (93_implementation_defined.md
I13; log 5). -/
def State.noResponse (s : State) : State :=
  { s with
    output := { rspValid := false, rspStatus := Config.freeStatus s.draws, rspRdata := Config.freeRdata s.draws }
    draws := s.draws + 1 }

/-- A request whose checks gave e: it raises that error, or has the effect `ok` (60_exceptions.md R187). -/
def State.answer (s : State) (e : Option ErrorKind) (ok : State) : Host.Outcome State Fault Refusal :=
  match e with
  | some e => .next (s.raise e)
  | none => .next ok

/-! ### Reset and the port -/

/-- The state with every register at its reset value; the port and the caller's inputs are no registers
(10_state.md R48). -/
def State.zeroRegs (s : State) : State := { s with regs := s.regs.zeroed }

/-- The state with other registers. -/
def State.withRegs (s : State) (r : RegisterFile) : State := { s with regs := r }

/-- The write data of the present request (30_encoding.md R80). -/
def State.wdata (s : State) : Wide := s.input.reqWdata

/-- The port moves to its next step: what the caller presents next comes to the input, and an idle input once nothing is
left (DESIGN CHOICE, log 3). -/
def State.nextInput (s : State) : State :=
  { s with input := s.later.headD .idle, later := s.later.tail }

/-- The end of a step that performed a request (00_scope.md R8). -/
def advancePort : Host.Outcome State Fault Refusal → Host.Outcome State Fault Refusal
  | .next t => .next t.nextInput
  | .fault r => .fault r
  | .refused r => .refused r

/-- A step with rst = 1: every register at its reset value, no request performed, no response (70_reset_and_hazards.md
R211; 60_exceptions.md R194). -/
def State.resetStep (s : State) : State := s.zeroRegs.noResponse.nextInput

/-- A step with neither rst nor req_valid: nothing changes and there is no response (00_scope.md R8). -/
def State.idleStep (s : State) : State := s.noResponse.nextInput

/-- A step whose command word decodes to no request (60_exceptions.md R186). -/
def State.illegalStep (s : State) : State := (s.raise .illegalRequest).nextInput

end Sys2Proof.Machine
end

