-- ==== Sys2Proof/Machine/BitAccess.lean ====
section
/-! DEFINITION. GET_BIT and SET_BIT (41_bit_access.md). -/

namespace Sys2Proof.Machine

/-- GET_BIT (41_bit_access.md R140). -/
def execGetBit (f : Family) (slot idx : Nat) (s : State) : Host.Outcome State Fault Refusal :=
  s.answer (s.checkBit f slot idx) (s.respond (readData (s.regs.viewBit f slot idx)))

/-- SET_BIT (41_bit_access.md R141). -/
def execSetBit (f : Family) (slot idx : Nat) (s : State) : Host.Outcome State Fault Refusal :=
  s.answer (s.checkBit f slot idx) (s.withRegs (s.regs.setViewBit f slot idx (bitOperand s.wdata))).done

end Sys2Proof.Machine
end

