-- ==== Sys2Proof/Machine/ByteAccess.lean ====
section
/-! DEFINITION. GET_BYTE and SET_BYTE (42_byte_access.md). -/

namespace Sys2Proof.Machine

/-- GET_BYTE (42_byte_access.md R150). -/
def execGetByte (f : Family) (slot idx : Nat) (s : State) : Host.Outcome State Fault Refusal :=
  s.answer (s.checkByte f slot idx) (s.respond (readData (s.regs.viewByte f slot idx)))

/-- SET_BYTE (42_byte_access.md R151). -/
def execSetByte (f : Family) (slot idx : Nat) (s : State) : Host.Outcome State Fault Refusal :=
  s.answer (s.checkByte f slot idx) (s.withRegs (s.regs.setViewByte f slot idx (byteOperand s.wdata))).done

end Sys2Proof.Machine
end

