-- ==== Sys2Proof/Machine/Control.lean ====
section
/-! DEFINITION. RESET (44_control.md). -/

namespace Sys2Proof.Machine

/-- RESET (44_control.md R170): a well-formed RESET cannot fail. -/
def execReset (s : State) : Host.Outcome State Fault Refusal := .next s.zeroRegs.done

end Sys2Proof.Machine
end

