-- ==== Sys2Proof/Machine/ValueAccess.lean ====
section
/-! DEFINITION. GET_VALUE and SET_VALUE (43_value_access.md). -/

namespace Sys2Proof.Machine

/-- GET_VALUE (43_value_access.md R160). -/
def execGetValue (f : Family) (slot : Nat) (s : State) : Host.Outcome State Fault Refusal :=
  s.answer (s.checkValue f slot) (s.respond (readData (s.regs.aliasRead f slot)))

/-- SET_VALUE (43_value_access.md R161). -/
def execSetValue (f : Family) (slot : Nat) (s : State) : Host.Outcome State Fault Refusal :=
  s.answer (s.checkValue f slot) (s.withRegs (s.regs.aliasWrite f slot (valueOperand f s.wdata))).done

end Sys2Proof.Machine
end

