-- ==== Sys2Proof/Machine/Dispatch.lean ====
section
/-! DEFINITION. One arm per operation of spec/opcode_table.json, in its order. -/

namespace Sys2Proof.Machine

def exec (i : Instr) (s : State) : Host.Outcome State Fault Refusal :=
  match i with
  | .getBit f slot idx => Sys2Proof.Machine.execGetBit f slot idx s
  | .setBit f slot idx => Sys2Proof.Machine.execSetBit f slot idx s
  | .getByte f slot idx => Sys2Proof.Machine.execGetByte f slot idx s
  | .setByte f slot idx => Sys2Proof.Machine.execSetByte f slot idx s
  | .getValue f slot => Sys2Proof.Machine.execGetValue f slot s
  | .setValue f slot => Sys2Proof.Machine.execSetValue f slot s
  | .reset => Sys2Proof.Machine.execReset s

end Sys2Proof.Machine
end

