-- ==== Sys2Proof/WellFormed.lean ====
section
/-! DEFINITION. Which requests can be encoded: the slot and the index fit their fields (30_encoding.md R85, R86). -/

namespace Sys2Proof

/-- SLOT is 8 bits (30_encoding.md R85). A slot that fits and is past the family's count is well-formed: it is
checked when the request runs. -/
def slotFits (slot : Nat) : Bool := slot ≤ 255

/-- IDX is 10 bits (30_encoding.md R86). An index that fits and is past the view is well-formed, as for the slot. -/
def idxFits (idx : Nat) : Bool := idx ≤ 1023

/-- The request can be encoded (30_encoding.md R85, R86, R96). -/
def Instr.wf : Instr → Bool
  | .getBit _ slot idx => slotFits slot && idxFits idx
  | .setBit _ slot idx => slotFits slot && idxFits idx
  | .getByte _ slot idx => slotFits slot && idxFits idx
  | .setByte _ slot idx => slotFits slot && idxFits idx
  | .getValue _ slot => slotFits slot
  | .setValue _ slot => slotFits slot
  | .reset => true

end Sys2Proof
end

