-- ==== Sys2Proof/Decode.lean ====
section
/-! DEFINITION. The command word: its fields, the total decoder (30_encoding.md R81 to R92) and the encoder. -/

namespace Sys2Proof

/-! ### The fields of a command word (R81) -/

/-- OP, bits 3:0. -/
def opField (w : CmdWord) : Nat := (w.extractLsb' 0 4).toNat

/-- FAM, bits 7:4. -/
def famField (w : CmdWord) : Nat := (w.extractLsb' 4 4).toNat

/-- SLOT, bits 15:8. -/
def slotField (w : CmdWord) : Nat := (w.extractLsb' 8 8).toNat

/-- IDX, bits 25:16. -/
def idxField (w : CmdWord) : Nat := (w.extractLsb' 16 10).toNat

/-- RSVD, bits 31:26. -/
def rsvdField (w : CmdWord) : Nat := (w.extractLsb' 26 6).toNat

/-- Bits 25:4, which are zero in RESET (R87, R91). -/
def resetField (w : CmdWord) : Nat := (w.extractLsb' 4 22).toNat

/-! ### Codes -/

/-- The family a FAM value selects; 9 to 15 are reserved (R84). -/
def familyOf : Nat → Option Family
  | 0 => some .gpr64
  | 1 => some .gpr32
  | 2 => some .gpr16
  | 3 => some .gpr8
  | 4 => some .flags
  | 5 => some .ip
  | 6 => some .vec128
  | 7 => some .vec256
  | 8 => some .vec512
  | _ => none

/-- The FAM value of a family (R84). -/
def Family.code : Family → Nat
  | .gpr64 => 0
  | .gpr32 => 1
  | .gpr16 => 2
  | .gpr8 => 3
  | .flags => 4
  | .ip => 5
  | .vec128 => 6
  | .vec256 => 7
  | .vec512 => 8

/-- The OP value of an operation (R83). -/
def Instr.op : Instr → Nat
  | .getBit _ _ _ => 0
  | .setBit _ _ _ => 1
  | .getByte _ _ _ => 2
  | .setByte _ _ _ => 3
  | .getValue _ _ => 4
  | .setValue _ _ => 5
  | .reset => 6

/-- The FAM field of an operation; 0 where the field is SBZ (R87). -/
def Instr.fam : Instr → Nat
  | .getBit f _ _ => f.code
  | .setBit f _ _ => f.code
  | .getByte f _ _ => f.code
  | .setByte f _ _ => f.code
  | .getValue f _ => f.code
  | .setValue f _ => f.code
  | .reset => 0

/-- The SLOT field of an operation; 0 where the field is SBZ (R87). -/
def Instr.slot : Instr → Nat
  | .getBit _ n _ => n
  | .setBit _ n _ => n
  | .getByte _ n _ => n
  | .setByte _ n _ => n
  | .getValue _ n => n
  | .setValue _ n => n
  | .reset => 0

/-- The IDX field of an operation; 0 where the field is SBZ (R87). -/
def Instr.idx : Instr → Nat
  | .getBit _ _ i => i
  | .setBit _ _ i => i
  | .getByte _ _ i => i
  | .setByte _ _ i => i
  | .getValue _ _ => 0
  | .setValue _ _ => 0
  | .reset => 0

/-! ### The decoder (R91) -/

/-- Why a word is no request (R92). The block reports all five as IllegalRequest (60_exceptions.md R186). -/
inductive IllegalReason where
  /-- RSVD is not zero (R82). -/
  | reservedBits
  /-- OP is 7 to 15 (R83). -/
  | reservedOp
  /-- FAM is 9 to 15 on an access (R84). -/
  | reservedFamily
  /-- IDX is not zero on GET_VALUE or SET_VALUE (R87). -/
  | nonzeroIndex
  /-- FAM, SLOT or IDX is not zero on RESET (R87). -/
  | nonzeroResetField
deriving DecidableEq, Repr

/-- What a command word decodes to: a request, or IllegalRequest with its reason (R91). -/
inductive Decoded where
  | request (i : Instr)
  | illegal (why : IllegalReason)
deriving DecidableEq, Repr

/-- The last step of Decode (R91): the access that OP 0 to 5 names. -/
def decodeAccess (op : Nat) (f : Family) (slot idx : Nat) : Decoded :=
  match op with
  | 0 => .request (.getBit f slot idx)
  | 1 => .request (.setBit f slot idx)
  | 2 => .request (.getByte f slot idx)
  | 3 => .request (.setByte f slot idx)
  | 4 => if idx = 0 then .request (.getValue f slot) else .illegal .nonzeroIndex
  | 5 => if idx = 0 then .request (.setValue f slot) else .illegal .nonzeroIndex
  | _ => .illegal .reservedOp

/-- Decode (R91): total on every 32-bit word. -/
def decode (w : CmdWord) : Decoded :=
  if rsvdField w ≠ 0 then .illegal .reservedBits
  else if 7 ≤ opField w then .illegal .reservedOp
  else if opField w = 6 then
    if resetField w ≠ 0 then .illegal .nonzeroResetField else .request .reset
  else
    match familyOf (famField w) with
    | none => .illegal .reservedFamily
    | some f => decodeAccess (opField w) f (slotField w) (idxField w)

/-- The request a word decodes to, if it is one. -/
def Decoded.request? : Decoded → Option Instr
  | .request i => some i
  | .illegal _ => none

/-- The command word of nbits bits w, every higher bit 0. A request is one 32-bit word presented whole on the port
(R80, R93), so no byte order comes in. -/
def cmdWordOf (nbits w : Nat) : CmdWord := BitVec.ofNat 32 (w % 2 ^ nbits)

/-- The request this decoder reads from the bits w of an opcode-table row. -/
def decodeTableWord (nbits w : Nat) : Option Instr := (decode (cmdWordOf nbits w)).request?

/-! ### The encoder (R81, R95) -/

/-- The word with these fields and RSVD = 0, laid out from bit 31 down (R81). -/
def cmdWord (op fam slot idx : Nat) : CmdWord :=
  BitVec.ofNat 6 0 ++ BitVec.ofNat 10 idx ++ BitVec.ofNat 8 slot ++ BitVec.ofNat 4 fam ++ BitVec.ofNat 4 op

/-- The command word of a well-formed request (R81 to R87). -/
def encode (i : Instr) : CmdWord := cmdWord i.op i.fam i.slot i.idx

end Sys2Proof
end

