-- ==== Sys2Proof/Machine/Port.lean ====
section
/-! DEFINITION. What one step of the port does with its inputs (00_scope.md R8; 60_exceptions.md R194). -/

namespace Sys2Proof.Machine

/-- One step of the port, given what performs a request (00_scope.md R8): a reset if rst = 1 whatever req_valid is
(60_exceptions.md R194), else the request presented, else nothing. -/
def servePort (perform : Instr → State → Host.Outcome State Fault Refusal) (s : State) :
    Host.Outcome State Fault Refusal :=
  if s.input.rst then .next s.resetStep
  else if s.input.reqValid then
    match decode s.input.reqCmd with
    | .request i => advancePort (perform i s)
    | .illegal _ => .next s.illegalStep
  else .next s.idleStep

/-- The state with this command word presented in the step to come: rst = 0, req_valid = 1, the write data as it was. -/
def State.presentWord (s : State) (w : CmdWord) : State :=
  { s with input := { s.input with rst := false, reqValid := true, reqCmd := w } }

end Sys2Proof.Machine
end

