-- ==== Sys2Proof/Machine/Step.lean ====
section
/-! DEFINITION. One step of the block, and how a request is put before it. -/

namespace Sys2Proof.Machine

/-- One step (00_scope.md R8). -/
def step (s : State) : Host.Outcome State Fault Refusal := servePort exec s

/-- The state in which the step to come performs the request of these bits. The block fetches nothing (20_memory.md
R70); this stands for its caller presenting a request (log 3). -/
def State.withFetchWord (s : State) (nbits w : Nat) : State := s.presentWord (cmdWordOf nbits w)

end Sys2Proof.Machine
end

