-- ==== Sys2Proof/Machine/Flags.lean ====
section
/-! DEFINITION. The names of FLAGS bits (10_state.md R39, R41). No operation computes a flag (R42; 40_wideint.md R127): a
name is only a bit index for the caller. -/

namespace Sys2Proof.Machine

/-- FLAGSName: the four names the spec gives (10_state.md R41). Its "etc." names no further one (log 2). -/
inductive FlagName where
  | carry
  | zero
  | sign
  | overflow
deriving DecidableEq, Repr

/-- FLAG_POS, an OPEN parameter: the bit of FLAGS each name stands for (10_state.md R41; log 2). -/
structure FlagPos where
  carry : Nat
  zero : Nat
  sign : Nat
  overflow : Nat
deriving DecidableEq, Repr

/-- The bit index of a name. -/
def FlagPos.pos (p : FlagPos) : FlagName → Nat
  | .carry => p.carry
  | .zero => p.zero
  | .sign => p.sign
  | .overflow => p.overflow

/-- FLAG_POS is injective into [0, 64) (10_state.md R41). -/
def FlagPos.wf (p : FlagPos) : Bool :=
  [p.carry, p.zero, p.sign, p.overflow].all (· < 64) && decide [p.carry, p.zero, p.sign, p.overflow].Nodup

/-- The reference configuration of FLAG_POS (10_state.md R41; D16). -/
def FlagPos.reference : FlagPos := { carry := 0, zero := 6, sign := 7, overflow := 11 }

/-- The bit of FLAGS that a name stands for (10_state.md R39). -/
def RegisterFile.flag (r : RegisterFile) (p : FlagPos) (name : FlagName) : BitVec 1 :=
  r.viewBit .flags 0 (p.pos name)

end Sys2Proof.Machine
end

