-- ==== Sys2Proof/Machine/Snapshot.lean ====
section
/-! DEFINITION. Requests as a caller presents them, and the caller's whole-state save and restore (44_control.md R172). -/

namespace Sys2Proof.Machine

/-- A request: a command and its write data (30_encoding.md R80). -/
structure Request where
  instr : Instr
  wdata : Wide
deriving DecidableEq, Repr

/-- The request as the inputs of one step (00_scope.md R7, R8). -/
def Request.portIn (r : Request) : PortIn :=
  { rst := false, reqValid := true, reqCmd := encode r.instr, reqWdata := r.wdata }

/-- The block with these inputs presented in the coming steps, first one first (log 3). -/
def State.present (s : State) (ps : List PortIn) : State :=
  { s with input := ps.headD .idle, later := ps.tail }

/-- SET_VALUE of consecutive slots of a bank, from slot n on, through its full view (44_control.md R172). -/
def setSlots {w : Nat} (f : Family) (n : Nat) : List (BitVec w) → List Request
  | [] => []
  | x :: xs => { instr := .setValue f n, wdata := readData x } :: setSlots f (n + 1) xs

/-- GET_VALUE of the slots 0 to k-1 of a bank, through its full view (44_control.md R172). -/
def getSlots (f : Family) (k : Nat) : List Request :=
  (List.range k).map fun n => { instr := .getValue f n, wdata := 0 }

/-- The NGPR + NVEC + 2 reads that give every register of r (44_control.md R172). -/
def saveRequests (r : RegisterFile) : List Request :=
  getSlots .gpr64 r.gpr.length ++ getSlots .flags 1 ++ getSlots .ip 1 ++ getSlots .vec512 r.vec.length

/-- The NGPR + NVEC + 2 writes that give every register its value in r (44_control.md R172). -/
def restoreRequests (r : RegisterFile) : List Request :=
  setSlots .gpr64 0 r.gpr ++ setSlots .flags 0 [r.flags] ++ setSlots .ip 0 [r.ip] ++ setSlots .vec512 0 r.vec

end Sys2Proof.Machine
end

