-- ==== Sys2Proof/Machine/Assembler.lean ====
section
/-! DEFINITION. Assembler lines, their text, and the requests they stand for, pseudo-instructions included
(30_encoding.md R96, R97). No step uses this file: it says what a line of a program presents to the port. -/

namespace Sys2Proof.Machine

/-! ### Lines and what they expand to -/

/-- A view: a family and a slot (30_encoding.md R96). -/
structure View where
  fam : Family
  slot : Nat
deriving DecidableEq, Repr

/-- The full view of the same slot (30_encoding.md R97). -/
def View.full (v : View) : View := { v with fam := v.fam.full }

/-- An index: a number, or a FLAGSName (30_encoding.md R96). -/
inductive Index where
  | num (n : Nat)
  | flag (name : FlagName)
deriving DecidableEq, Repr

/-- The number an index stands for (30_encoding.md R96). -/
def Index.eval (p : FlagPos) : Index → Nat
  | .num n => n
  | .flag name => p.pos name

/-- One line: a request (R96) or a pseudo-instruction (R97). -/
inductive Line where
  | getBit (v : View) (i : Index)
  | setBit (v : View) (i : Index) (b : Nat)
  | getByte (v : View) (i : Index)
  | setByte (v : View) (i : Index) (imm8 : Nat)
  | getValue (v : View)
  | setValue (v : View) (imm : Nat)
  | reset
  | zsetValue (v : View) (imm : Nat)
  | clear (v : View)
  | getFlag (name : FlagName)
  | setFlag (name : FlagName) (b : Nat)
deriving DecidableEq, Repr

/-- SET_VALUE of a view; the immediate is placed zero-extended in req_wdata (30_encoding.md R88, R96). -/
def setValueRequest (v : View) (imm : Nat) : Request :=
  { instr := .setValue v.fam v.slot, wdata := BitVec.ofNat 512 imm }

/-- The requests a line stands for, in order (30_encoding.md R96, R97). -/
def Line.expand (p : FlagPos) : Line → List Request
  | .getBit v i => [{ instr := .getBit v.fam v.slot (i.eval p), wdata := 0 }]
  | .setBit v i b => [{ instr := .setBit v.fam v.slot (i.eval p), wdata := BitVec.ofNat 512 b }]
  | .getByte v i => [{ instr := .getByte v.fam v.slot (i.eval p), wdata := 0 }]
  | .setByte v i d => [{ instr := .setByte v.fam v.slot (i.eval p), wdata := BitVec.ofNat 512 d }]
  | .getValue v => [{ instr := .getValue v.fam v.slot, wdata := 0 }]
  | .setValue v x => [setValueRequest v x]
  | .reset => [{ instr := .reset, wdata := 0 }]
  | .zsetValue v x => [setValueRequest v.full 0, setValueRequest v x]
  | .clear v => [setValueRequest v 0]
  | .getFlag name => [{ instr := .getBit .flags 0 (p.pos name), wdata := 0 }]
  | .setFlag name b => [{ instr := .setBit .flags 0 (p.pos name), wdata := BitVec.ofNat 512 b }]

/-- The slot can be encoded (30_encoding.md R96). -/
def View.wf (v : View) : Bool := slotFits v.slot

/-- The index can be encoded (30_encoding.md R96); a name's always can. -/
def Index.wf : Index → Bool
  | .num n => idxFits n
  | .flag _ => true

/-- The line is one R96 admits: its fields can be encoded and its immediate fits its operand. -/
def Line.wf : Line → Bool
  | .getBit v i => v.wf && i.wf
  | .setBit v i b => v.wf && i.wf && b ≤ 1
  | .getByte v i => v.wf && i.wf
  | .setByte v i d => v.wf && i.wf && d ≤ 255
  | .getValue v => v.wf
  | .setValue v x => v.wf && x < 2 ^ 512
  | .reset => true
  | .zsetValue v x => v.wf && x < 2 ^ 512
  | .clear v => v.wf
  | .getFlag _ => true
  | .setFlag _ b => b ≤ 1

/-! ### The text of a line (R96). Choices the rule leaves open are log 10. -/

/-- A decimal digit. -/
def decDigit (c : Char) : Option Nat :=
  if 48 ≤ c.toNat ∧ c.toNat ≤ 57 then some (c.toNat - 48) else none

/-- A hex digit of either case. -/
def hexDigit (c : Char) : Option Nat :=
  if 97 ≤ c.toNat ∧ c.toNat ≤ 102 then some (c.toNat - 87)
  else if 65 ≤ c.toNat ∧ c.toNat ≤ 70 then some (c.toNat - 55)
  else decDigit c

/-- The number some digits spell after what acc already holds. -/
def readDigits (base : Nat) (digit : Char → Option Nat) : Nat → List Char → Option Nat
  | acc, [] => some acc
  | acc, c :: cs =>
    match digit c with
    | some d => readDigits base digit (acc * base + d) cs
    | none => none

/-- A decimal or 0x hex number, at least one digit (30_encoding.md R96). -/
def parseNum : List Char → Option Nat
  | [] => none
  | '0' :: 'x' :: c :: cs => readDigits 16 hexDigit 0 (c :: cs)
  | c :: cs => readDigits 10 decDigit 0 (c :: cs)

/-- A space or a tab. -/
def isBlank (c : Char) : Bool := c = ' ' || c = '\t'

/-- The text with no blank at its start. -/
def trimLeft : List Char → List Char := List.dropWhile isBlank

/-- The text with no blank at either end. -/
def trim (cs : List Char) : List Char := (trimLeft (trimLeft cs).reverse).reverse

/-- The pieces between the separators. -/
def splitAtChar (sep : Char) : List Char → List (List Char)
  | [] => [[]]
  | c :: cs =>
    if c = sep then [] :: splitAtChar sep cs
    else
      match splitAtChar sep cs with
      | [] => [[c]]
      | piece :: rest => (c :: piece) :: rest

/-- The families' canonical names (30_encoding.md R96). -/
def familyNamed (cs : List Char) : Option Family :=
  if cs = "GPR64".toList then some .gpr64
  else if cs = "GPR32".toList then some .gpr32
  else if cs = "GPR16".toList then some .gpr16
  else if cs = "GPR8".toList then some .gpr8
  else if cs = "FLAGS".toList then some .flags
  else if cs = "IP".toList then some .ip
  else if cs = "VEC128".toList then some .vec128
  else if cs = "VEC256".toList then some .vec256
  else if cs = "VEC512".toList then some .vec512
  else none

/-- The view of this family whose slot is spelled cs. -/
def viewOf (f : Family) (cs : List Char) : Option View := (parseNum cs).map fun n => { fam := f, slot := n }

/-- `g<s>` with its suffix, the g taken off (30_encoding.md R96). A hex slot takes every hex digit, so g0x1b is slot
27 of GPR64 (DESIGN CHOICE, log 10). -/
def parseGprShort (cs : List Char) : Option View :=
  match viewOf .gpr64 cs with
  | some v => some v
  | none =>
    match cs.getLast? with
    | some 'd' => viewOf .gpr32 cs.dropLast
    | some 'w' => viewOf .gpr16 cs.dropLast
    | some 'b' => viewOf .gpr8 cs.dropLast
    | _ => none

/-- The canonical form `NAME[s]` (30_encoding.md R96). -/
def parseCanonical (cs : List Char) : Option View :=
  match splitAtChar '[' cs with
  | [name, rest] =>
    match familyNamed name, rest.getLast? with
    | some f, some ']' => viewOf f rest.dropLast
    | _, _ => none
  | _ => none

/-- A view in either form (30_encoding.md R96). -/
def parseView (cs : List Char) : Option View :=
  if cs = "flags".toList then some { fam := .flags, slot := 0 }
  else if cs = "ip".toList then some { fam := .ip, slot := 0 }
  else
    match cs with
    | 'g' :: rest => parseGprShort rest
    | 'x' :: 'm' :: 'm' :: rest => viewOf .vec128 rest
    | 'y' :: 'm' :: 'm' :: rest => viewOf .vec256 rest
    | 'z' :: 'm' :: 'm' :: rest => viewOf .vec512 rest
    | _ => parseCanonical cs

/-- A FLAGSName; both the lower case of R96 and the upper case of R41 are read (DESIGN CHOICE, log 10). -/
def parseFlag (cs : List Char) : Option FlagName :=
  if cs = "cf".toList ∨ cs = "CF".toList then some .carry
  else if cs = "zf".toList ∨ cs = "ZF".toList then some .zero
  else if cs = "sf".toList ∨ cs = "SF".toList then some .sign
  else if cs = "of".toList ∨ cs = "OF".toList then some .overflow
  else none

/-- An index (30_encoding.md R96). -/
def parseIndex (cs : List Char) : Option Index :=
  match parseNum cs with
  | some n => some (.num n)
  | none => (parseFlag cs).map .flag

/-- A line's mnemonic and operands (30_encoding.md R96, R97). R96 gives the bit operand `<0|1>` of set_bit and set_flag
and the `<imm8>` of set_byte no spelling of their own: each is read as any number, decimal or 0x hex, and Line.wf then
holds it to its range, so 0x1, 00 and 01 are bits (DESIGN CHOICE, log 10). -/
def parseOperation (mnemonic : List Char) (args : List (List Char)) : Option Line :=
  match args with
  | [] => if mnemonic = "reset".toList then some .reset else none
  | [a] =>
    if mnemonic = "get_value".toList then (parseView a).map .getValue
    else if mnemonic = "clear".toList then (parseView a).map .clear
    else if mnemonic = "get_flag".toList then (parseFlag a).map .getFlag
    else none
  | [a, b] =>
    if mnemonic = "get_bit".toList then (parseView a).bind fun v => (parseIndex b).map (.getBit v)
    else if mnemonic = "get_byte".toList then (parseView a).bind fun v => (parseIndex b).map (.getByte v)
    else if mnemonic = "set_value".toList then (parseView a).bind fun v => (parseNum b).map (.setValue v)
    else if mnemonic = "zset_value".toList then (parseView a).bind fun v => (parseNum b).map (.zsetValue v)
    else if mnemonic = "set_flag".toList then (parseFlag a).bind fun n => (parseNum b).map (.setFlag n)
    else none
  | [a, b, c] =>
    if mnemonic = "set_bit".toList then
      (parseView a).bind fun v => (parseIndex b).bind fun i => (parseNum c).map (.setBit v i)
    else if mnemonic = "set_byte".toList then
      (parseView a).bind fun v => (parseIndex b).bind fun i => (parseNum c).map (.setByte v i)
    else none
  | _ => none

/-- One line of text: the line it spells, none on a blank line, or no reading (30_encoding.md R96). A comment starts
with a semicolon. -/
def parseLine (cs : List Char) : Option (List Line) :=
  let body := trim (cs.takeWhile (· ≠ ';'))
  if body = [] then some []
  else
    let rest := trim (body.dropWhile (! isBlank ·))
    let args := if rest = [] then [] else (splitAtChar ',' rest).map trim
    match parseOperation (body.takeWhile (! isBlank ·)) args with
    | some l => if l.wf then some [l] else none
    | none => none

/-- The requests one line of text stands for (30_encoding.md R96, R97). -/
def assembleLine (p : FlagPos) (text : String) : Option (List Request) :=
  (parseLine text.toList).map fun ls => (ls.map (Line.expand p)).flatten

end Sys2Proof.Machine
end

