-- ==== Sys2Proof/Machine/WideInt.lean ====
section
/-! DEFINITION. The wide-integer value functions (40_wideint.md). They compute on values, read and write no register, and
the port cannot reach them (00_scope.md R10; R131). -/

namespace Sys2Proof.Machine

/-- The widths of a WideInteger (40_wideint.md R110; D34). -/
inductive WideWidth where
  | w128
  | w256
  | w512
deriving DecidableEq, Repr

/-- W. -/
abbrev WideWidth.bits : WideWidth → Nat
  | .w128 => 128
  | .w256 => 256
  | .w512 => 512

/-- `WideInteger<W>`: a W-bit unsigned value (40_wideint.md R110). -/
abbrev WideInteger (W : WideWidth) := BitVec W.bits

/-- Why a call lies outside the extension helpers' domain (93_implementation_defined.md I16). -/
inductive ValueRefusal where
  /-- zext_N or sext_N of more than N bits (R128, R129). Safe: the call has no value. -/
  | extensionNarrows
  /-- sext_N of a value with no bits, so no sign bit: R129 asks for 1 ≤ m. Safe: the call has no value. -/
  | signOfNothing
deriving DecidableEq, Repr

/-- What a value function gives its caller (40_wideint.md R131): a value, an error kind, or a refusal of the call. -/
inductive ValueResult (α : Type) where
  | value (a : α)
  | raised (e : ErrorKind)
  | refused (r : ValueRefusal)
deriving DecidableEq, Repr

/-! ### Construction and conversion -/

/-- `zero<W>()` (R113). -/
def wideZero (W : WideWidth) : WideInteger W := 0

/-- `from_u64<W>` (R114): zero-extended. -/
def wideFromU64 (W : WideWidth) (x : Native) : WideInteger W := x.setWidth W.bits

/-- `from_bytes<W>` (R115): SizeMismatch past W/8 bytes, else little-endian and zero-extended. -/
def wideFromBytes (W : WideWidth) (bs : List Byte) : ValueResult (WideInteger W) :=
  if W.bits / 8 < bs.length then .raised .sizeMismatch else .value (ofBytes W.bits bs)

/-- `to_bytes<W>` (R116): little-endian, always W/8 bytes. -/
def wideToBytes {W : WideWidth} (v : WideInteger W) : List Byte := bytesOf v

/-! ### Bit and byte access on values -/

/-- `get_bit<W>` (R117). -/
def wideGetBit {W : WideWidth} (v : WideInteger W) (i : Nat) : ValueResult (BitVec 1) :=
  if W.bits ≤ i then .raised .indexOutOfRange else .value (takeField v i 1)

/-- `set_bit<W>` (R118). -/
def wideSetBit {W : WideWidth} (v : WideInteger W) (i : Nat) (b : BitVec 1) : ValueResult (WideInteger W) :=
  if W.bits ≤ i then .raised .indexOutOfRange else .value (putField v i b)

/-- `get_byte<W>` (R119). -/
def wideGetByte {W : WideWidth} (v : WideInteger W) (j : Nat) : ValueResult Byte :=
  if W.bits / 8 ≤ j then .raised .indexOutOfRange else .value (takeByte v j)

/-- `set_byte<W>` (R120). -/
def wideSetByte {W : WideWidth} (v : WideInteger W) (j : Nat) (d : Byte) : ValueResult (WideInteger W) :=
  if W.bits / 8 ≤ j then .raised .indexOutOfRange else .value (putByte v j d)

/-! ### Arithmetic and bitwise operations: two values of one width (D34) -/

/-- `add<W>` (R121): modulo 2^W, the carry reported nowhere (R127). -/
def wideAdd {W : WideWidth} (a b : WideInteger W) : WideInteger W := a + b

/-- `and<W>` (R122). -/
def wideAnd {W : WideWidth} (a b : WideInteger W) : WideInteger W := a &&& b

/-- `or<W>` (R123). -/
def wideOr {W : WideWidth} (a b : WideInteger W) : WideInteger W := a ||| b

/-- `xor<W>` (R124). -/
def wideXor {W : WideWidth} (a b : WideInteger W) : WideInteger W := a ^^^ b

/-- `shl<W>` (R125): logical, by any amount, 0 from W on; the amount is not reduced modulo W. -/
def wideShl {W : WideWidth} (a : WideInteger W) (n : Nat) : WideInteger W := if W.bits ≤ n then 0 else a <<< n

/-- `shr<W>` (R126): logical, by any amount, 0 from W on. -/
def wideShr {W : WideWidth} (a : WideInteger W) (n : Nat) : WideInteger W := if W.bits ≤ n then 0 else a >>> n

/-! ### Extension helpers -/

/-- `zext_N` (R128): refused when it would narrow. -/
def zextN (N : Nat) {m : Nat} (v : BitVec m) : ValueResult (BitVec N) :=
  if N < m then .refused .extensionNarrows else .value (v.setWidth N)

/-- `sext_N` (R129): refused when it would narrow, and on a value with no bits. -/
def sextN (N : Nat) {m : Nat} (v : BitVec m) : ValueResult (BitVec N) :=
  if m = 0 then .refused .signOfNothing
  else if N < m then .refused .extensionNarrows
  else .value (v.signExtend N)

end Sys2Proof.Machine
end

