-- ==== Sys2Proof/Safety.lean ====
section
/-! DEFINITION. The terms claims are stated in: the invariant of the block, frames over the register file, and what a
run does with a list of requests. -/

namespace Sys2Proof

/-- The request i writes family f: it is a SET_BIT, SET_BYTE or SET_VALUE of it (10_state.md R42). -/
def Instr.Writes (i : Instr) (f : Family) : Prop :=
  (∃ n k, i = .setBit f n k) ∨ (∃ n k, i = .setByte f n k) ∨ ∃ n, i = .setValue f n

end Sys2Proof

namespace Sys2Proof.Machine

/-- Both counts lie in 1..255 (00_scope.md R6). -/
def RegisterFile.wf (r : RegisterFile) : Bool := Config.countOk r.gpr.length && Config.countOk r.vec.length

/-- A response carries only the codes that the port produces, and no data beside an error (60_exceptions.md R182, R185,
R188). Nothing is said of a step with no response (93_implementation_defined.md I13). -/
def PortOut.legal (o : PortOut) : Bool :=
  !o.rspValid || (o.rspStatus == okCode ||
    ((o.rspStatus == ErrorKind.indexOutOfRange.code || o.rspStatus == ErrorKind.invalidSlot.code ||
      o.rspStatus == ErrorKind.illegalRequest.code) && o.rspRdata == 0))

/-- The invariant of the block: its counts are in range and its last response is a legal one. -/
def State.wf (s : State) : Bool := s.regs.wf && s.output.legal

/-- r' has the banks of r, slot for slot of the same number (10_state.md R46). -/
def RegisterFile.SameSize (r r' : RegisterFile) : Prop :=
  r'.gpr.length = r.gpr.length ∧ r'.vec.length = r.vec.length

/-- r' has the size of r and agrees with r in every backing slot but slot n of bank b. -/
def RegisterFile.SameBut (r r' : RegisterFile) (b : Bank) (n : Nat) : Prop :=
  r.SameSize r' ∧ ∀ c m, m < r.slots c → (c ≠ b ∨ m ≠ n) → r'.read c m = r.read c m

/-- t differs from s in the registers and the response alone: the port's inputs and the count of free values are as
they were. -/
def State.SamePort (s t : State) : Prop := t.input = s.input ∧ t.later = s.later ∧ t.draws = s.draws

/-- The step to come performs the request i (00_scope.md R8). -/
def State.Performs (s : State) (i : Instr) : Prop :=
  s.input.rst = false ∧ s.input.reqValid = true ∧ decode s.input.reqCmd = .request i

/-- How many low bits of req_wdata an operation uses (30_encoding.md R87). -/
def dataBits : Instr → Nat
  | .getBit _ _ _ => 0
  | .setBit _ _ _ => 1
  | .getByte _ _ _ => 0
  | .setByte _ _ _ => 8
  | .getValue _ _ => 0
  | .setValue f _ => f.aw
  | .reset => 0

/-- The status that the checks of 60_exceptions.md R187 give a command word, read off its fields: IllegalRequest, then
InvalidSlot, then IndexOutOfRange, else OK. -/
def portStatus (r : RegisterFile) (w : CmdWord) : StatusCode :=
  match decode w, familyOf (famField w) with
  | .illegal _, _ => 4
  | .request .reset, _ => 0
  | .request _, none => 0
  | .request _, some f =>
    if r.count f ≤ slotField w then 2
    else if opField w < 2 ∧ f.aw ≤ idxField w then 1
    else if 2 ≤ opField w ∧ opField w < 4 ∧ f.aw / 8 ≤ idxField w then 1
    else 0

/-- The state with other write data presented. -/
def State.withWdata (s : State) (x : Wide) : State := { s with input := { s.input with reqWdata := x } }

/-- The next state of an outcome, if it is one. -/
def nextState? : Host.Outcome State Fault Refusal → Option State
  | .next t => some t
  | .fault _ => none
  | .refused _ => none

end Sys2Proof.Machine
end

