-- ==== Sys2Proof/Certificates/Slice0/Obligations.lean ====
section
/-! DEFINITION. The statements about the model. A response is written out as rsp_valid, rsp_status, rsp_rdata; status 0
is OK, 1 IndexOutOfRange, 2 InvalidSlot, 4 IllegalRequest (60_exceptions.md R182). -/

open Sys2Proof Sys2Proof.Machine

/-! ### The seven operations -/

/-- R140: the encoding of GET_BIT, its two errors, and the bit it answers; no register is written. -/
def Obligations.GetBitFollowsItsRule : Prop :=
  ∀ (f : Family) (n i : Nat) (s : State),
    (n ≤ 255 → i ≤ 1023 →
      decode (BitVec.ofNat 32 (0 + 16 * f.code + 256 * n + 65536 * i)) = .request (.getBit f n i)) ∧
    (s.regs.count f ≤ n → exec (.getBit f n i) s = .next { s with output := ⟨true, 2, 0⟩ }) ∧
    (n < s.regs.count f → f.aw ≤ i → exec (.getBit f n i) s = .next { s with output := ⟨true, 1, 0⟩ }) ∧
    (n < s.regs.count f → i < f.aw →
      exec (.getBit f n i) s =
        .next { s with output := ⟨true, 0, if (s.regs.read f.bank n).getLsbD i then 1 else 0⟩ })

/-- R141: the encoding of SET_BIT, its two errors, and its write: bit i of the backing slot takes req_wdata[0], every
other bit of the slot, every other slot and the port are as before, and the read data is 0. -/
def Obligations.SetBitFollowsItsRule : Prop :=
  ∀ (f : Family) (n i : Nat) (s : State),
    (n ≤ 255 → i ≤ 1023 →
      decode (BitVec.ofNat 32 (1 + 16 * f.code + 256 * n + 65536 * i)) = .request (.setBit f n i)) ∧
    (s.regs.count f ≤ n → exec (.setBit f n i) s = .next { s with output := ⟨true, 2, 0⟩ }) ∧
    (n < s.regs.count f → f.aw ≤ i → exec (.setBit f n i) s = .next { s with output := ⟨true, 1, 0⟩ }) ∧
    (n < s.regs.count f → i < f.aw →
      ∃ t, exec (.setBit f n i) s = .next t ∧ t.output = ⟨true, 0, 0⟩ ∧ s.SamePort t ∧
        s.regs.SameBut t.regs f.bank n ∧
        ∀ k, k < f.bw → (t.regs.read f.bank n).getLsbD k =
          if k = i then s.input.reqWdata.getLsbD 0 else (s.regs.read f.bank n).getLsbD k)

/-- R150: the encoding of GET_BYTE, its two errors, and the byte it answers; no register is written. -/
def Obligations.GetByteFollowsItsRule : Prop :=
  ∀ (f : Family) (n j : Nat) (s : State),
    (n ≤ 255 → j ≤ 1023 →
      decode (BitVec.ofNat 32 (2 + 16 * f.code + 256 * n + 65536 * j)) = .request (.getByte f n j)) ∧
    (s.regs.count f ≤ n → exec (.getByte f n j) s = .next { s with output := ⟨true, 2, 0⟩ }) ∧
    (n < s.regs.count f → f.aw / 8 ≤ j → exec (.getByte f n j) s = .next { s with output := ⟨true, 1, 0⟩ }) ∧
    (n < s.regs.count f → j < f.aw / 8 →
      ∃ d, exec (.getByte f n j) s = .next { s with output := ⟨true, 0, d⟩ } ∧
        ∀ k, d.getLsbD k = (decide (k < 8) && (s.regs.read f.bank n).getLsbD (8 * j + k)))

/-- R151: the encoding of SET_BYTE, its two errors, and its write: byte j of the backing slot takes req_wdata[7:0],
every other bit of the slot, every other slot and the port are as before, and the read data is 0. -/
def Obligations.SetByteFollowsItsRule : Prop :=
  ∀ (f : Family) (n j : Nat) (s : State),
    (n ≤ 255 → j ≤ 1023 →
      decode (BitVec.ofNat 32 (3 + 16 * f.code + 256 * n + 65536 * j)) = .request (.setByte f n j)) ∧
    (s.regs.count f ≤ n → exec (.setByte f n j) s = .next { s with output := ⟨true, 2, 0⟩ }) ∧
    (n < s.regs.count f → f.aw / 8 ≤ j → exec (.setByte f n j) s = .next { s with output := ⟨true, 1, 0⟩ }) ∧
    (n < s.regs.count f → j < f.aw / 8 →
      ∃ t, exec (.setByte f n j) s = .next t ∧ t.output = ⟨true, 0, 0⟩ ∧ s.SamePort t ∧
        s.regs.SameBut t.regs f.bank n ∧
        ∀ k, k < f.bw → (t.regs.read f.bank n).getLsbD k =
          if 8 * j ≤ k ∧ k < 8 * j + 8 then s.input.reqWdata.getLsbD (k - 8 * j)
          else (s.regs.read f.bank n).getLsbD k)

/-- R160: the encoding of GET_VALUE, its error, and the view it answers, zero-extended; no register is written. -/
def Obligations.GetValueFollowsItsRule : Prop :=
  ∀ (f : Family) (n : Nat) (s : State),
    (n ≤ 255 → decode (BitVec.ofNat 32 (4 + 16 * f.code + 256 * n)) = .request (.getValue f n)) ∧
    (s.regs.count f ≤ n → exec (.getValue f n) s = .next { s with output := ⟨true, 2, 0⟩ }) ∧
    (n < s.regs.count f →
      ∃ d, exec (.getValue f n) s = .next { s with output := ⟨true, 0, d⟩ } ∧
        ∀ k, d.getLsbD k = (decide (k < f.aw) && (s.regs.read f.bank n).getLsbD k))

/-- R161: the encoding of SET_VALUE, its error, and its write: the low aw(f) bits of the backing slot take those of
req_wdata, the bits above them (preserve-upper), every other slot and the port are as before, the read data is 0. -/
def Obligations.SetValueFollowsItsRule : Prop :=
  ∀ (f : Family) (n : Nat) (s : State),
    (n ≤ 255 → decode (BitVec.ofNat 32 (5 + 16 * f.code + 256 * n)) = .request (.setValue f n)) ∧
    (s.regs.count f ≤ n → exec (.setValue f n) s = .next { s with output := ⟨true, 2, 0⟩ }) ∧
    (n < s.regs.count f →
      ∃ t, exec (.setValue f n) s = .next t ∧ t.output = ⟨true, 0, 0⟩ ∧ s.SamePort t ∧
        s.regs.SameBut t.regs f.bank n ∧
        ∀ k, k < f.bw → (t.regs.read f.bank n).getLsbD k =
          if k < f.aw then s.input.reqWdata.getLsbD k else (s.regs.read f.bank n).getLsbD k)

/-- R170: the only legal word of RESET, and its effect: every slot of every bank reads 0, the banks keep their sizes,
the port is as before, and the read data is 0. It cannot fail. -/
def Obligations.ResetFollowsItsRule : Prop :=
  ∀ s : State,
    (∀ w : CmdWord, decode w = .request .reset ↔ w = 6) ∧
    ∃ t, exec .reset s = .next t ∧ t.output = ⟨true, 0, 0⟩ ∧ s.SamePort t ∧ s.regs.SameSize t.regs ∧
      ∀ b n, n < s.regs.slots b → t.regs.read b n = 0

/-- R33: the bank, alias width, backing width and count of each of the nine families. -/
def Obligations.FamilyTableIsTheRules : Prop :=
  ∀ r : RegisterFile,
    [Family.gpr64, .gpr32, .gpr16, .gpr8, .flags, .ip, .vec128, .vec256, .vec512].map
      (fun f => (f.bank, f.aw, f.bw, r.count f)) =
    [(.g, 64, 64, r.gpr.length), (.g, 32, 64, r.gpr.length), (.g, 16, 64, r.gpr.length),
     (.g, 8, 64, r.gpr.length), (.flags, 64, 64, 1), (.ip, 64, 64, 1),
     (.v, 128, 512, r.vec.length), (.v, 256, 512, r.vec.length), (.v, 512, 512, r.vec.length)]

/-! ### Decode and encode -/

/-- Decoding the encoding of a well-formed request gives the request back, every operand at every value. -/
def Obligations.DecodeOfEncodeIsTheRequest : Prop :=
  ∀ i : Instr, i.wf = true → decode (encode i) = .request i

/-- A word that decodes to a request is the encoding of that request, which is well-formed: each request has one word. -/
def Obligations.EncodeOfDecodeIsTheWord : Prop :=
  ∀ (w : CmdWord) (i : Instr), decode w = .request i → i.wf = true ∧ encode i = w

/-- R92: the words that decode to IllegalRequest are exactly the ones listed. A SLOT or IDX out of range for the
family is not among them. -/
def Obligations.IllegalWordsAreTheReservedOnes : Prop :=
  ∀ w : CmdWord, (∃ why, decode w = .illegal why) ↔
    (rsvdField w ≠ 0 ∨ 7 ≤ opField w ∨ (opField w ≠ 6 ∧ 9 ≤ famField w) ∨
      ((opField w = 4 ∨ opField w = 5) ∧ idxField w ≠ 0) ∨
      (opField w = 6 ∧ (famField w ≠ 0 ∨ slotField w ≠ 0 ∨ idxField w ≠ 0)))

/-- R94: the twelve encoded examples. -/
def Obligations.SpecWordsDecodeAsListed : Prop :=
  decode 0x007F0061 = .request (.setBit .vec128 0 127) ∧ decode 0x007F0060 = .request (.getBit .vec128 0 127) ∧
  decode 0x007F0070 = .request (.getBit .vec256 0 127) ∧ decode 0x00800070 = .request (.getBit .vec256 0 128) ∧
  decode 0x00000003 = .request (.setByte .gpr64 0 0) ∧ decode 0x00000004 = .request (.getValue .gpr64 0) ∧
  decode 0x00000006 = .request .reset ∧ decode 0x02000080 = .request (.getBit .vec512 0 512) ∧
  decode 0x00001F85 = .request (.setValue .vec512 31) ∧ decode 0x00070042 = .request (.getByte .flags 0 7) ∧
  decode 0x00000055 = .request (.setValue .ip 0) ∧ decode 0x00000F34 = .request (.getValue .gpr8 15)

/-! ### The step -/

/-- When the command word presented decodes to a request, the step is that request (R8). That the port then takes the
first of the caller's later inputs, or an idle input if there is none, is the model's choice (log 3). -/
def Obligations.StepRunsTheDecodedRequest : Prop :=
  ∀ (s t : State) (i : Instr), s.input.rst = false → s.input.reqValid = true →
    decode s.input.reqCmd = .request i → exec i s = .next t →
      step s = .next { t with input := t.later.headD .idle, later := t.later.tail }

/-- A command word that decodes to no request is answered with IllegalRequest and writes no register (R186, R188). That
the port then takes the first of the caller's later inputs, or an idle input if there is none, is the model's choice
(log 3). -/
def Obligations.StepAnswersAnIllegalWord : Prop :=
  ∀ (s : State) (why : IllegalReason), s.input.rst = false → s.input.reqValid = true →
    decode s.input.reqCmd = .illegal why →
      step s = .next { s with output := ⟨true, 4, 0⟩, input := s.later.headD .idle, later := s.later.tail }

/-- R9: with no request and no reset, no register changes, and there is no response. -/
def Obligations.IdleStepChangesNoRegister : Prop :=
  ∀ s : State, s.input.rst = false → s.input.reqValid = false →
    ∃ t, step s = .next t ∧ t.regs = s.regs ∧ t.output.rspValid = false

/-- R211: a step with rst = 1 zeroes every register and answers nothing, whatever request is presented; and a block
before its first step is in the same state. -/
def Obligations.PowerOnResetZeroesEveryRegister : Prop :=
  (∀ s : State, s.input.rst = true →
    ∃ t, step s = .next t ∧ t.output.rspValid = false ∧ s.regs.SameSize t.regs ∧
      ∀ b n, n < s.regs.slots b → t.regs.read b n = 0) ∧
  ∀ (ngpr nvec : Nat) (b : Bank) (n : Nat), n < (State.powerUp ngpr nvec).regs.slots b →
    (State.powerUp ngpr nvec).regs.read b n = 0

/-- R7: a step answers exactly when a request is presented and rst is 0. -/
def Obligations.ResponseExactlyForRequestWithoutReset : Prop :=
  ∀ s t : State, step s = .next t → t.output.rspValid = (s.input.reqValid && !s.input.rst)

/-- R187: the status of every request is the first that applies of IllegalRequest, InvalidSlot, IndexOutOfRange, and
OK when none does. -/
def Obligations.StatusFollowsTheCheckingOrder : Prop :=
  ∀ s : State, s.input.rst = false → s.input.reqValid = true →
    ∃ t, step s = .next t ∧ t.output.rspValid = true ∧ t.output.rspStatus = portStatus s.regs s.input.reqCmd

/-- A request answered with an error writes no register and gives no data, and the step after it is the step there would
have been had the request not been sent (R188). That the caller's next input is the first of later, or an idle
input if there is none, is the model's choice (log 3). -/
def Obligations.FailedRequestLeavesNoTrace : Prop :=
  ∀ s t : State, step s = .next t → t.output.rspValid = true → t.output.rspStatus ≠ 0 →
    t.regs = s.regs ∧ t.output.rspRdata = 0 ∧
    step t = step { s with input := s.later.headD .idle, later := s.later.tail }

/-- A response carries one of the statuses 0, 1, 2 and 4: the port never answers SizeMismatch or a code with no name. -/
def Obligations.PortAnswersOnlyItsOwnCodes : Prop :=
  ∀ s t : State, step s = .next t → t.output.rspValid = true →
    t.output.rspStatus = 0 ∨ t.output.rspStatus = 1 ∨ t.output.rspStatus = 2 ∨ t.output.rspStatus = 4

/-- No run of any length, from any state and over any inputs, stops. -/
def Obligations.NoRunEverStops : Prop :=
  ∀ (k : Nat) (s : State), ∃ t : State, Host.Core.run core k s = .next t

/-- The model's choice (log 3): a step takes one input of the caller's list, in the list's order, and the port is idle
once the list is empty. -/
def Obligations.StepTakesInputsInOrder : Prop :=
  ∀ s t : State, step s = .next t → t.input = s.later.headD .idle ∧ t.later = s.later.tail

/-! ### Invariants and rules of the whole machine -/

/-- Every step keeps the invariant: both counts lie in 1..255, and a response carries a legal status, with no data
beside an error. -/
def Obligations.EveryStepKeepsTheInvariant : Prop :=
  ∀ s t : State, s.wf = true → step s = .next t → t.wf = true

/-- The invariant holds of a block of any admitted size before its first step; State.reset, whose size is the model's
choice (log 1), is one. -/
def Obligations.ResetMeetsTheInvariant : Prop :=
  State.reset.wf = true ∧
  ∀ ngpr nvec : Nat, 1 ≤ ngpr → ngpr ≤ 255 → 1 ≤ nvec → nvec ≤ 255 → (State.powerUp ngpr nvec).wf = true

/-- R46: no step changes the number of slots of a bank. -/
def Obligations.EveryStepKeepsTheBankSizes : Prop :=
  ∀ s t : State, step s = .next t → s.regs.SameSize t.regs

/-- R40, R42: FLAGS changes only under a reset or a SET of family FLAGS, and IP only under a reset or a SET of family
IP. -/
def Obligations.FlagsAndIpChangeOnlyByTheirOwnWrites : Prop :=
  ∀ s t : State, step s = .next t →
    (t.regs.flags ≠ s.regs.flags →
      s.input.rst = true ∨ s.Performs .reset ∨ ∃ i, s.Performs i ∧ i.Writes .flags) ∧
    (t.regs.ip ≠ s.regs.ip →
      s.input.rst = true ∨ s.Performs .reset ∨ ∃ i, s.Performs i ∧ i.Writes .ip)

/-- R47: GET_BIT, GET_BYTE and GET_VALUE write no register, whatever their outcome. -/
def Obligations.ReadsWriteNoRegister : Prop :=
  ∀ (f : Family) (n i : Nat) (s : State),
    (∃ t, exec (.getBit f n i) s = .next t ∧ t.regs = s.regs) ∧
    (∃ t, exec (.getByte f n i) s = .next t ∧ t.regs = s.regs) ∧
    (∃ t, exec (.getValue f n) s = .next t ∧ t.regs = s.regs)

/-- A SET_BIT, SET_BYTE or SET_VALUE of a family leaves every backing slot as it was but the one it names: its SLOT in
the bank of that family. A read, a request answered with an error, an illegal word and an idle step leave every slot as
it was. Only RESET and rst = 1, which no clause is about, write more. -/
def Obligations.StepTouchesAtMostOneSlot : Prop :=
  ∀ s t : State, step s = .next t →
    (∀ i f, s.Performs i → i.Writes f → s.regs.SameBut t.regs f.bank i.slot) ∧
    (∀ i, s.Performs i → i ≠ .reset → (∀ f, ¬ i.Writes f) → t.regs = s.regs) ∧
    (t.output.rspValid = true → t.output.rspStatus ≠ 0 → t.regs = s.regs) ∧
    (s.input.rst = false → (∀ i, ¬ s.Performs i) → t.regs = s.regs)

/-- Bits of req_wdata that an operation does not use change neither the registers it leaves nor its response. -/
def Obligations.UnusedWriteDataHasNoEffect : Prop :=
  ∀ (i : Instr) (s : State) (x : Wide), (∀ k, k < dataBits i → x.getLsbD k = s.input.reqWdata.getLsbD k) →
    ∃ t u, exec i s = .next t ∧ exec i (s.withWdata x) = .next u ∧ u.regs = t.regs ∧ u.output = t.output

/-- The status of a step depends on its inputs and on the sizes of the banks, never on what the registers hold. -/
def Obligations.StatusIgnoresRegisterContents : Prop :=
  ∀ s s' t t' : State, s'.input = s.input → s.regs.SameSize s'.regs → step s = .next t → step s' = .next t' →
    t.output.rspValid = true → t'.output.rspValid = true ∧ t'.output.rspStatus = t.output.rspStatus

/-- A request performed a second time leaves what its first performance left, and answers the same. -/
def Obligations.EveryRequestIsIdempotent : Prop :=
  ∀ (i : Instr) (s t : State), exec i s = .next t → exec i t = .next t

/-- R212: any number of resets in a row, of either kind, leaves the registers of a block before its first step. -/
def Obligations.ResetsInARowLeaveThePowerUpState : Prop :=
  ∀ (s : State) (ps : List PortIn), ps ≠ [] →
    (∀ p ∈ ps, p.rst = true ∨ (p.reqValid = true ∧ p.reqCmd = 6)) →
      ∃ t : State, Host.Core.run core ps.length (s.present ps) = .next t ∧
        t.regs = .powerUp s.regs.gpr.length s.regs.vec.length

/-! ### Views of one slot -/

/-- A bit written through one view of a slot reads the same through every view of that slot which holds it. -/
def Obligations.WrittenBitShowsInEveryView : Prop :=
  ∀ (f g : Family) (n i : Nat) (s : State), f.bank = g.bank → n < s.regs.count f → i < f.aw → i < g.aw →
    ∃ t u, exec (.setBit f n i) s = .next t ∧ exec (.getBit g n i) t = .next u ∧
      u.output = ⟨true, 0, if s.input.reqWdata.getLsbD 0 then 1 else 0⟩

/-- A view written whole and read whole through any view of that slot: the written bits where the write reached, the
old bits above it. -/
def Obligations.WrittenValueShowsInEveryView : Prop :=
  ∀ (f g : Family) (n : Nat) (s : State), f.bank = g.bank → n < s.regs.count f →
    ∃ t u, exec (.setValue f n) s = .next t ∧ exec (.getValue g n) t = .next u ∧
      u.output.rspValid = true ∧ u.output.rspStatus = 0 ∧
      ∀ k, u.output.rspRdata.getLsbD k = (decide (k < g.aw) &&
        if k < f.aw then s.input.reqWdata.getLsbD k else (s.regs.read g.bank n).getLsbD k)

/-- Bit k of byte j of a view is its bit 8j+k. -/
def Obligations.BytesAndBitsShareStorage : Prop :=
  ∀ (f : Family) (n j k : Nat) (s : State), n < s.regs.count f → j < f.aw / 8 → k < 8 →
    ∃ t u, exec (.getByte f n j) s = .next t ∧ exec (.getBit f n (8 * j + k)) s = .next u ∧
      t.output.rspStatus = 0 ∧ u.output.rspStatus = 0 ∧
      u.output.rspRdata.getLsbD 0 = t.output.rspRdata.getLsbD k

/-- Every bit of every slot of every bank can be written to either value by some request. -/
def Obligations.NoBitIsHardwired : Prop :=
  ∀ (s : State) (b : Bank) (n k : Nat) (v : Bool), n < s.regs.slots b → k < b.width →
    ∃ (f : Family) (x : Wide) (t : State), f.bank = b ∧ exec (.setBit f n k) (s.withWdata x) = .next t ∧
      (t.regs.read b n).getLsbD k = v

/-! ### Callers' sequences -/

/-- Each of the NGPR + NVEC + 2 reads of a save answers OK with the value that the restore of the same registers
writes, and the registers stay as they are. -/
def Obligations.SaveReadsEveryRegister : Prop :=
  ∀ s : State, s.regs.wf = true →
    (saveRequests s.regs).length = s.regs.gpr.length + s.regs.vec.length + 2 ∧
    (restoreRequests s.regs).length = s.regs.gpr.length + s.regs.vec.length + 2 ∧
    ∀ (k : Nat) (q : Request), (restoreRequests s.regs)[k]? = some q →
      ∃ t : State, Host.Core.run core (k + 1) (s.present ((saveRequests s.regs).map Request.portIn)) = .next t ∧
        t.regs = s.regs ∧ t.output = ⟨true, 0, q.wdata⟩

/-- Running the restore of any register file r on a block of the same size leaves exactly the registers of r, whatever
the block held. -/
def Obligations.RestoreWritesEveryRegister : Prop :=
  ∀ (s : State) (r : RegisterFile), r.wf = true → r.SameSize s.regs →
    ∃ t : State, Host.Core.run core (restoreRequests r).length (s.present ((restoreRequests r).map Request.portIn)) = .next t ∧
      t.regs = r

/-- The two requests of `zset_value` leave the immediate's low aw bits, zero-extended, in the whole backing slot, and
no other slot changed. -/
def Obligations.ZsetValueClearsTheUpperBits : Prop :=
  ∀ (p : FlagPos) (v : View) (imm : Nat) (s : State), v.slot < s.regs.count v.fam → v.slot ≤ 255 → imm < 2 ^ 512 →
    ∃ t : State, Host.Core.run core 2 (s.present (((Line.zsetValue v imm).expand p).map Request.portIn)) = .next t ∧
      t.output = ⟨true, 0, 0⟩ ∧ s.regs.SameBut t.regs v.fam.bank v.slot ∧
      (t.regs.read v.fam.bank v.slot).toNat = imm % 2 ^ v.fam.aw

/-- `set_flag` writes the bit of FLAGS that FLAG_POS gives the name and no other bit of FLAGS and no other register,
and `get_flag` then answers what was written. -/
def Obligations.SetFlagWritesTheNamedBit : Prop :=
  ∀ (p : FlagPos) (name : FlagName) (b : Nat) (s : State), p.wf = true → b ≤ 1 →
    (∃ t : State, Host.Core.run core 1 (s.present (((Line.setFlag name b).expand p).map Request.portIn)) = .next t ∧
      s.regs.SameBut t.regs .flags 0 ∧
      ∀ k, k < 64 → t.regs.flags.getLsbD k = if k = p.pos name then decide (b = 1) else s.regs.flags.getLsbD k) ∧
    ∃ u : State, Host.Core.run core 2
        (s.present (((Line.setFlag name b).expand p ++ (Line.getFlag name).expand p).map Request.portIn)) = .next u ∧
      u.output = ⟨true, 0, BitVec.ofNat 512 b⟩

/-! ### Value functions -/

/-- R115: from_bytes raises SizeMismatch exactly on more than W/8 bytes, and else packs them byte 0 lowest,
zero-extended. -/
def Obligations.FromBytesPacksOrRaisesSizeMismatch : Prop :=
  ∀ (W : WideWidth) (bs : List Byte),
    (W.bits / 8 < bs.length → wideFromBytes W bs = .raised .sizeMismatch) ∧
    (bs.length ≤ W.bits / 8 → ∃ v, wideFromBytes W bs = .value v ∧
      ∀ k, k < W.bits → v.getLsbD k = (bs.getD (k / 8) 0).getLsbD (k % 8))

/-- R116: to_bytes gives W/8 bytes, byte i being bits 8i+7 down to 8i. -/
def Obligations.ToBytesGivesEveryByte : Prop :=
  ∀ (W : WideWidth) (v : WideInteger W),
    (wideToBytes v).length = W.bits / 8 ∧
    ∀ i k, i < W.bits / 8 → k < 8 → ((wideToBytes v).getD i 0).getLsbD k = v.getLsbD (8 * i + k)

/-- Bytes of exact width survive from_bytes and to_bytes, and so does every value the other way round. -/
def Obligations.BytesRoundTrip : Prop :=
  ∀ (W : WideWidth),
    (∀ bs : List Byte, bs.length = W.bits / 8 → ∃ v, wideFromBytes W bs = .value v ∧ wideToBytes v = bs) ∧
    ∀ v : WideInteger W, wideFromBytes W (wideToBytes v) = .value v

/-- R117, R118: get_bit and set_bit of a value, their range, and that every other bit is kept. -/
def Obligations.ValueBitAccess : Prop :=
  ∀ (W : WideWidth) (v : WideInteger W) (i : Nat) (b : BitVec 1),
    (W.bits ≤ i → wideGetBit v i = .raised .indexOutOfRange ∧ wideSetBit v i b = .raised .indexOutOfRange) ∧
    (i < W.bits → (∃ d, wideGetBit v i = .value d ∧ d.getLsbD 0 = v.getLsbD i) ∧
      ∃ r, wideSetBit v i b = .value r ∧ wideGetBit r i = .value b ∧
        ∀ k, k < W.bits → k ≠ i → r.getLsbD k = v.getLsbD k)

/-- R119, R120: get_byte and set_byte of a value, their range, that every other byte is kept, and that to_bytes shows
the byte written. -/
def Obligations.ValueByteAccess : Prop :=
  ∀ (W : WideWidth) (v : WideInteger W) (j : Nat) (d : Byte),
    (W.bits / 8 ≤ j → wideGetByte v j = .raised .indexOutOfRange ∧ wideSetByte v j d = .raised .indexOutOfRange) ∧
    (j < W.bits / 8 → (∃ e, wideGetByte v j = .value e ∧ ∀ k, k < 8 → e.getLsbD k = v.getLsbD (8 * j + k)) ∧
      ∃ r, wideSetByte v j d = .value r ∧ wideGetByte r j = .value d ∧ (wideToBytes r)[j]? = some d ∧
        ∀ k, k < W.bits → k / 8 ≠ j → r.getLsbD k = v.getLsbD k)

/-- R121, R125, R126: addition modulo 2^W, and the two logical shifts by any amount. -/
def Obligations.ValueArithmetic : Prop :=
  ∀ (W : WideWidth) (a b : WideInteger W) (n : Nat),
    (wideAdd a b).toNat = (a.toNat + b.toNat) % 2 ^ W.bits ∧
    (wideShl a n).toNat = (a.toNat * 2 ^ n) % 2 ^ W.bits ∧
    (wideShr a n).toNat = a.toNat / 2 ^ n

/-- R122, R123, R124: and, or and xor act on each bit. -/
def Obligations.ValueBitwise : Prop :=
  ∀ (W : WideWidth) (a b : WideInteger W) (i : Nat), i < W.bits →
    (wideAnd a b).getLsbD i = (a.getLsbD i && b.getLsbD i) ∧
    (wideOr a b).getLsbD i = (a.getLsbD i || b.getLsbD i) ∧
    (wideXor a b).getLsbD i = (a.getLsbD i ^^ b.getLsbD i)

/-- R113, R114: zero is 0, and from_u64 keeps the number, never extending a sign. -/
def Obligations.ValueConstruction : Prop :=
  ∀ (W : WideWidth) (x : Native), (wideZero W).toNat = 0 ∧ (wideFromU64 W x).toNat = x.toNat

/-- R128, R129: both extensions refuse to narrow; zext_N keeps the bits of v below zeros, sext_N below copies of the
top bit of v. -/
def Obligations.ExtensionsKeepTheValueOrRefuse : Prop :=
  ∀ (m N : Nat) (v : BitVec m),
    (N < m → zextN N v = .refused .extensionNarrows) ∧
    (m ≤ N → ∃ z, zextN N v = .value z ∧ ∀ k, k < N → z.getLsbD k = (decide (k < m) && v.getLsbD k)) ∧
    (1 ≤ m → N < m → sextN N v = .refused .extensionNarrows) ∧
    (1 ≤ m → m ≤ N → ∃ x, sextN N v = .value x ∧ ∀ k, k < N → x.getLsbD k = v.getLsbD (min k (m - 1)))
end

