-- ==== Sys2Proof/Laws/Fields.lean ====
section
/-! SUPPORT. What the bit-field helpers do, bit by bit. -/

namespace Sys2Proof.Machine

theorem getLsbD_takeField {w : Nat} (v : BitVec w) (lo len k : Nat) :
    (takeField v lo len).getLsbD k = (decide (k < len) && v.getLsbD (lo + k)) := by
  simp [takeField, BitVec.getLsbD_extractLsb']

theorem getLsbD_putField {w len : Nat} (v : BitVec w) (lo : Nat) (d : BitVec len) (k : Nat) (hk : k < w) :
    (putField v lo d).getLsbD k = if lo ≤ k ∧ k < lo + len then d.getLsbD (k - lo) else v.getLsbD k := by
  unfold putField
  by_cases h1 : k < lo
  · have h2 : ¬ (lo ≤ k ∧ k < lo + len) := by omega
    simp [h1, h2, hk]
  · by_cases h3 : k - lo < len
    · have h2 : lo ≤ k ∧ k < lo + len := by omega
      simp [h1, h2, hk, h3]
    · have h2 : ¬ (lo ≤ k ∧ k < lo + len) := by omega
      have h4 : d.getLsbD (k - lo) = false := BitVec.getLsbD_of_ge _ _ (by omega)
      simp [h1, h2, hk, h3, h4]

/-- Taking back the field just put gives what was put. -/
theorem takeField_putField {w len : Nat} (v : BitVec w) (lo : Nat) (d : BitVec len) (h : lo + len ≤ w) :
    takeField (putField v lo d) lo len = d := by
  ext k hk
  simp only [← BitVec.getLsbD_eq_getElem, getLsbD_takeField, hk, decide_true, Bool.true_and]
  rw [getLsbD_putField _ _ _ _ (by omega), if_pos (by omega), Nat.add_sub_cancel_left]

/-- Putting the same field twice is putting it once. -/
theorem putField_putField {w len : Nat} (v : BitVec w) (lo : Nat) (d : BitVec len) :
    putField (putField v lo d) lo d = putField v lo d := by
  ext k hk
  simp only [← BitVec.getLsbD_eq_getElem]
  rw [getLsbD_putField _ _ _ _ hk, getLsbD_putField _ _ _ _ hk]
  split <;> rfl

theorem getLsbD_takeByte {w : Nat} (v : BitVec w) (j k : Nat) :
    (takeByte v j).getLsbD k = (decide (k < 8) && v.getLsbD (8 * j + k)) :=
  getLsbD_takeField v (byteLo j) 8 k

theorem getLsbD_putByte {w : Nat} (v : BitVec w) (j : Nat) (d : Byte) (k : Nat) (hk : k < w) :
    (putByte v j d).getLsbD k = if 8 * j ≤ k ∧ k < 8 * j + 8 then d.getLsbD (k - 8 * j) else v.getLsbD k :=
  getLsbD_putField v (byteLo j) d k hk

/-- The byte list of a value has one entry per whole byte. -/
@[simp] theorem bytesOf_length {w : Nat} (v : BitVec w) : (bytesOf v).length = w / 8 := by simp [bytesOf]

theorem bytesOf_getElem {w : Nat} (v : BitVec w) (j : Nat) (h : j < (bytesOf v).length) :
    (bytesOf v)[j] = takeByte v j := by simp [bytesOf]

/-- Bit k of packed bytes is bit k % 8 of byte k / 8. -/
theorem getLsbD_ofBytes (w : Nat) (bs : List Byte) (k : Nat) (hk : k < w) :
    (ofBytes w bs).getLsbD k = (bs.getD (k / 8) 0).getLsbD (k % 8) := by
  induction bs generalizing k with
  | nil => simp [ofBytes]
  | cons b bs ih =>
    by_cases h : k < 8
    · simp [ofBytes, hk, h, Nat.div_eq_of_lt h, Nat.mod_eq_of_lt h]
    · have hd : k / 8 = (k - 8) / 8 + 1 := by omega
      have hm : k % 8 = (k - 8) % 8 := by omega
      have hb : b.getLsbD k = false := BitVec.getLsbD_of_ge _ _ (by omega)
      simp only [ofBytes, BitVec.getLsbD_or, BitVec.getLsbD_setWidth, BitVec.getLsbD_shiftLeft]
      rw [ih (k - 8) (by omega), hd, hm]
      simp [hk, h, hb]

end Sys2Proof.Machine
end

