-- ==== Sys2Proof/Laws/Registers.lean ====
section
/-! SUPPORT. What reading, writing and zeroing a register file do. -/

namespace Sys2Proof

theorem Family.bw_pos (f : Family) : 0 < f.bank.width := by cases f <;> decide

/-- No view is wider than its backing slot (10_state.md R33). -/
theorem Family.aw_le_width (f : Family) : f.aw ≤ f.bank.width := by cases f <;> decide

theorem Family.aw_pos (f : Family) : 0 < f.aw := by cases f <;> decide

/-- A view is a whole number of bytes. -/
theorem Family.aw_bytes (f : Family) : 8 * (f.aw / 8) = f.aw := by cases f <;> decide

theorem Bank.width_le (b : Bank) : b.width ≤ 512 := by cases b <;> decide

@[simp] theorem Family.full_bank (f : Family) : f.full.bank = f.bank := by cases f <;> rfl

@[simp] theorem Family.full_aw (f : Family) : f.full.aw = f.bank.width := by cases f <;> rfl

end Sys2Proof

namespace Sys2Proof.Machine

@[simp] theorem RegisterFile.slots_write (r : RegisterFile) (b c : Bank) (n : Nat) (x : BitVec b.width) :
    (r.write b n x).slots c = r.slots c := by
  cases b <;> cases c <;> simp [RegisterFile.write, RegisterFile.slots]

@[simp] theorem RegisterFile.count_write (r : RegisterFile) (b : Bank) (f : Family) (n : Nat) (x : BitVec b.width) :
    (r.write b n x).count f = r.count f := r.slots_write b f.bank n x

/-- A write keeps the size of both banks (10_state.md R46). -/
theorem RegisterFile.sameSize_write (r : RegisterFile) (b : Bank) (n : Nat) (x : BitVec b.width) :
    r.SameSize (r.write b n x) := by
  cases b <;> simp [RegisterFile.write, RegisterFile.SameSize]

/-- Reading the slot just written gives what was written. -/
theorem RegisterFile.read_write_same (r : RegisterFile) (b : Bank) (n : Nat) (x : BitVec b.width)
    (h : n < r.slots b) : (r.write b n x).read b n = x := by
  cases b <;> simp [RegisterFile.write, RegisterFile.read, RegisterFile.slots] at * <;> simp [h]

/-- Every other slot keeps its value. -/
theorem RegisterFile.read_write_other (r : RegisterFile) (b c : Bank) (n m : Nat) (x : BitVec b.width)
    (hn : n < r.slots b) (hm : m < r.slots c) (h : c ≠ b ∨ m ≠ n) : (r.write b n x).read c m = r.read c m := by
  have hne : c = b → n ≠ m := fun hc => by rcases h with h | h; exacts [absurd hc h, Ne.symm h]
  cases b <;> cases c <;> simp [RegisterFile.write, RegisterFile.read, RegisterFile.slots] at *
  · simp [hne]
  · omega
  · omega
  · simp [hne]

/-- A write to a slot leaves the rest of the register file as it was. -/
theorem RegisterFile.sameBut_write (r : RegisterFile) (b : Bank) (n : Nat) (x : BitVec b.width)
    (h : n < r.slots b) : r.SameBut (r.write b n x) b n :=
  ⟨r.sameSize_write b n x, fun c m hm hne => r.read_write_other b c n m x h hm hne⟩

/-- The second of two writes to a slot is the one that lasts. -/
theorem RegisterFile.write_write (r : RegisterFile) (b : Bank) (n : Nat) (x y : BitVec b.width) :
    (r.write b n x).write b n y = r.write b n y := by
  cases b <;> simp [RegisterFile.write]

/-- Writing a slot's own value changes nothing. -/
theorem RegisterFile.write_read (r : RegisterFile) (b : Bank) (n : Nat) (h : n < r.slots b) :
    r.write b n (r.read b n) = r := by
  cases b <;> simp [RegisterFile.write, RegisterFile.read, RegisterFile.slots] at * <;> simp [h]

/-- Two register files of one size that agree in every slot are equal. -/
theorem RegisterFile.ext_read (r r' : RegisterFile) (hs : r.SameSize r')
    (h : ∀ b n, n < r.slots b → r'.read b n = r.read b n) : r' = r := by
  obtain ⟨hg, hv⟩ := hs
  have h1 := fun n => h .g n
  have h2 := fun n => h .v n
  have h3 := h .flags 0 (by simp [RegisterFile.slots])
  have h4 := h .ip 0 (by simp [RegisterFile.slots])
  cases r; cases r'
  simp only [RegisterFile.read, RegisterFile.slots, RegisterFile.mk.injEq] at *
  refine ⟨List.ext_getElem hg fun n a b => ?_, h3, h4, List.ext_getElem hv fun n a b => ?_⟩
  · simpa [a, b] using h1 n b
  · simpa [a, b] using h2 n b

@[simp] theorem RegisterFile.slots_zeroed (r : RegisterFile) (b : Bank) : r.zeroed.slots b = r.slots b := by
  cases b <;> simp [RegisterFile.zeroed, RegisterFile.powerUp, RegisterFile.slots]

theorem RegisterFile.sameSize_zeroed (r : RegisterFile) : r.SameSize r.zeroed := by
  simp [RegisterFile.SameSize, RegisterFile.zeroed, RegisterFile.powerUp]

/-- Every slot of a zeroed register file reads 0 (10_state.md R48). -/
theorem RegisterFile.read_zeroed (r : RegisterFile) (b : Bank) (n : Nat) : r.zeroed.read b n = 0 := by
  cases b <;> simp [RegisterFile.zeroed, RegisterFile.powerUp, RegisterFile.read, List.getElem?_replicate]
  all_goals split <;> simp

/-- Equal sizes give equal counts. -/
theorem RegisterFile.SameSize.slots {r r' : RegisterFile} (h : r.SameSize r') (b : Bank) : r'.slots b = r.slots b := by
  cases b <;> simp [RegisterFile.slots, h.1, h.2]

/-- Equal sizes: both register files have counts in range, or neither has. -/
theorem RegisterFile.SameSize.wf {r r' : RegisterFile} (h : r.SameSize r') : r'.wf = r.wf := by
  simp [RegisterFile.wf, h.1, h.2]

end Sys2Proof.Machine
end

