-- ==== Sys2Proof/Laws/State.lean ====
section
/-! SUPPORT. One lemma per field of State per named update: what the update leaves there. -/

namespace Sys2Proof.Machine

@[simp] theorem State.respond_regs (s : State) (d : Wide) : (s.respond d).regs = s.regs := rfl
@[simp] theorem State.respond_input (s : State) (d : Wide) : (s.respond d).input = s.input := rfl
@[simp] theorem State.respond_later (s : State) (d : Wide) : (s.respond d).later = s.later := rfl
@[simp] theorem State.respond_output (s : State) (d : Wide) :
    (s.respond d).output = { rspValid := true, rspStatus := okCode, rspRdata := d } := rfl
@[simp] theorem State.respond_draws (s : State) (d : Wide) : (s.respond d).draws = s.draws := rfl

@[simp] theorem State.done_regs (s : State) : s.done.regs = s.regs := rfl
@[simp] theorem State.done_input (s : State) : s.done.input = s.input := rfl
@[simp] theorem State.done_later (s : State) : s.done.later = s.later := rfl
@[simp] theorem State.done_output (s : State) :
    s.done.output = { rspValid := true, rspStatus := okCode, rspRdata := 0 } := rfl
@[simp] theorem State.done_draws (s : State) : s.done.draws = s.draws := rfl

@[simp] theorem State.raise_regs (s : State) (e : ErrorKind) : (s.raise e).regs = s.regs := rfl
@[simp] theorem State.raise_input (s : State) (e : ErrorKind) : (s.raise e).input = s.input := rfl
@[simp] theorem State.raise_later (s : State) (e : ErrorKind) : (s.raise e).later = s.later := rfl
@[simp] theorem State.raise_output (s : State) (e : ErrorKind) :
    (s.raise e).output = { rspValid := true, rspStatus := e.code, rspRdata := 0 } := rfl
@[simp] theorem State.raise_draws (s : State) (e : ErrorKind) : (s.raise e).draws = s.draws := rfl

@[simp] theorem State.noResponse_regs (s : State) : s.noResponse.regs = s.regs := rfl
@[simp] theorem State.noResponse_input (s : State) : s.noResponse.input = s.input := rfl
@[simp] theorem State.noResponse_later (s : State) : s.noResponse.later = s.later := rfl
@[simp] theorem State.noResponse_output (s : State) :
    s.noResponse.output = { rspValid := false, rspStatus := Config.freeStatus s.draws, rspRdata := Config.freeRdata s.draws } := rfl
@[simp] theorem State.noResponse_draws (s : State) : s.noResponse.draws = s.draws + 1 := rfl

@[simp] theorem State.zeroRegs_regs (s : State) : s.zeroRegs.regs = s.regs.zeroed := rfl
@[simp] theorem State.zeroRegs_input (s : State) : s.zeroRegs.input = s.input := rfl
@[simp] theorem State.zeroRegs_later (s : State) : s.zeroRegs.later = s.later := rfl
@[simp] theorem State.zeroRegs_output (s : State) : s.zeroRegs.output = s.output := rfl
@[simp] theorem State.zeroRegs_draws (s : State) : s.zeroRegs.draws = s.draws := rfl

@[simp] theorem State.withRegs_regs (s : State) (r : RegisterFile) : (s.withRegs r).regs = r := rfl
@[simp] theorem State.withRegs_input (s : State) (r : RegisterFile) : (s.withRegs r).input = s.input := rfl
@[simp] theorem State.withRegs_later (s : State) (r : RegisterFile) : (s.withRegs r).later = s.later := rfl
@[simp] theorem State.withRegs_output (s : State) (r : RegisterFile) : (s.withRegs r).output = s.output := rfl
@[simp] theorem State.withRegs_draws (s : State) (r : RegisterFile) : (s.withRegs r).draws = s.draws := rfl

@[simp] theorem State.nextInput_regs (s : State) : s.nextInput.regs = s.regs := rfl
@[simp] theorem State.nextInput_input (s : State) : s.nextInput.input = s.later.headD .idle := rfl
@[simp] theorem State.nextInput_later (s : State) : s.nextInput.later = s.later.tail := rfl
@[simp] theorem State.nextInput_output (s : State) : s.nextInput.output = s.output := rfl
@[simp] theorem State.nextInput_draws (s : State) : s.nextInput.draws = s.draws := rfl

@[simp] theorem State.withWdata_regs (s : State) (x : Wide) : (s.withWdata x).regs = s.regs := rfl
@[simp] theorem State.withWdata_input (s : State) (x : Wide) :
    (s.withWdata x).input = { s.input with reqWdata := x } := rfl
@[simp] theorem State.withWdata_later (s : State) (x : Wide) : (s.withWdata x).later = s.later := rfl
@[simp] theorem State.withWdata_output (s : State) (x : Wide) : (s.withWdata x).output = s.output := rfl
@[simp] theorem State.withWdata_draws (s : State) (x : Wide) : (s.withWdata x).draws = s.draws := rfl

@[simp] theorem State.present_regs (s : State) (ps : List PortIn) : (s.present ps).regs = s.regs := rfl
@[simp] theorem State.present_input (s : State) (ps : List PortIn) : (s.present ps).input = ps.headD .idle := rfl
@[simp] theorem State.present_later (s : State) (ps : List PortIn) : (s.present ps).later = ps.tail := rfl
@[simp] theorem State.present_output (s : State) (ps : List PortIn) : (s.present ps).output = s.output := rfl
@[simp] theorem State.present_draws (s : State) (ps : List PortIn) : (s.present ps).draws = s.draws := rfl

@[simp] theorem State.withFetchWord_regs (s : State) (nbits w : Nat) : (s.withFetchWord nbits w).regs = s.regs := rfl
@[simp] theorem State.withFetchWord_input (s : State) (nbits w : Nat) :
    (s.withFetchWord nbits w).input = { s.input with rst := false, reqValid := true, reqCmd := cmdWordOf nbits w } := rfl
@[simp] theorem State.withFetchWord_later (s : State) (nbits w : Nat) :
    (s.withFetchWord nbits w).later = s.later := rfl
@[simp] theorem State.withFetchWord_output (s : State) (nbits w : Nat) :
    (s.withFetchWord nbits w).output = s.output := rfl
@[simp] theorem State.withFetchWord_draws (s : State) (nbits w : Nat) :
    (s.withFetchWord nbits w).draws = s.draws := rfl

end Sys2Proof.Machine
end

