-- ==== Sys2Proof/Laws/Ops.lean ====
section
/-! SUPPORT. What the shared operations can answer: the checks, the answer of a request, its end. -/

namespace Sys2Proof.Machine

/-- The three outcomes of an indexed access's checks, in the order of 60_exceptions.md R187. -/
theorem State.checkIndexed_cases (s : State) (f : Family) (n i limit : Nat) :
    (s.regs.count f ≤ n ∧ s.checkIndexed f n i limit = some .invalidSlot) ∨
    (n < s.regs.count f ∧ limit ≤ i ∧ s.checkIndexed f n i limit = some .indexOutOfRange) ∨
    (n < s.regs.count f ∧ i < limit ∧ s.checkIndexed f n i limit = none) := by
  unfold State.checkIndexed
  by_cases h : s.regs.count f ≤ n
  · simp [h]
  · by_cases h' : limit ≤ i
    · simp [h, h', Nat.lt_of_not_le h]
    · simp [h, h', Nat.lt_of_not_le h, Nat.lt_of_not_le h']

/-- The two outcomes of a value access's check (60_exceptions.md R184). -/
theorem State.checkValue_cases (s : State) (f : Family) (n : Nat) :
    (s.regs.count f ≤ n ∧ s.checkValue f n = some .invalidSlot) ∨
    (n < s.regs.count f ∧ s.checkValue f n = none) := by
  unfold State.checkValue
  by_cases h : s.regs.count f ≤ n
  · simp [h]
  · simp [h, Nat.lt_of_not_le h]

theorem State.checkIndexed_ok {s : State} {f : Family} {n i limit : Nat} (hn : n < s.regs.count f) (hi : i < limit) :
    s.checkIndexed f n i limit = none := by
  simp [State.checkIndexed, Nat.not_le.mpr hn, Nat.not_le.mpr hi]

theorem State.checkIndexed_slot {s : State} {f : Family} {n : Nat} (i limit : Nat) (hn : s.regs.count f ≤ n) :
    s.checkIndexed f n i limit = some .invalidSlot := by
  simp [State.checkIndexed, hn]

theorem State.checkIndexed_index {s : State} {f : Family} {n i limit : Nat} (hn : n < s.regs.count f)
    (hi : limit ≤ i) : s.checkIndexed f n i limit = some .indexOutOfRange := by
  simp [State.checkIndexed, Nat.not_le.mpr hn, hi]

theorem State.checkValue_ok {s : State} {f : Family} {n : Nat} (hn : n < s.regs.count f) :
    s.checkValue f n = none := by
  simp [State.checkValue, Nat.not_le.mpr hn]

theorem State.checkValue_slot {s : State} {f : Family} {n : Nat} (hn : s.regs.count f ≤ n) :
    s.checkValue f n = some .invalidSlot := by
  simp [State.checkValue, hn]

/-- A request is answered: with the error its checks found, or with its effect. -/
theorem State.answer_eq (s : State) (e : Option ErrorKind) (ok : State) :
    s.answer e ok = .next (e.elim ok s.raise) := by
  cases e <;> rfl

/-- What a request's next state can be. -/
theorem State.answer_cases {s ok t : State} {e : Option ErrorKind} (h : s.answer e ok = .next t) :
    (∃ k, e = some k ∧ t = s.raise k) ∨ (e = none ∧ t = ok) := by
  cases e with
  | none => exact .inr ⟨rfl, by simpa [State.answer] using h.symm⟩
  | some k => exact .inl ⟨k, rfl, by simpa [State.answer] using h.symm⟩

theorem advancePort_cases {o : Host.Outcome State Fault Refusal} {t : State} (h : advancePort o = .next t) :
    ∃ u, o = .next u ∧ t = u.nextInput := by
  cases o with
  | next u => exact ⟨u, rfl, by simpa [advancePort] using h.symm⟩
  | fault r => cases h
  | refused r => cases h

/-- What a step can answer: a reset, a request performed, an illegal command word, or nothing done (00_scope.md R8). -/
theorem step_cases {s t : State} (h : step s = .next t) :
    (s.input.rst = true ∧ t = s.resetStep) ∨
    (∃ i u, s.Performs i ∧ exec i s = .next u ∧ t = u.nextInput) ∨
    (s.input.rst = false ∧ s.input.reqValid = true ∧ (∃ why, decode s.input.reqCmd = .illegal why) ∧
      t = s.illegalStep) ∨
    (s.input.rst = false ∧ s.input.reqValid = false ∧ t = s.idleStep) := by
  unfold step servePort at h
  cases hr : s.input.rst with
  | true => exact .inl ⟨rfl, by simpa [hr] using h.symm⟩
  | false =>
    cases hv : s.input.reqValid with
    | false => exact .inr (.inr (.inr ⟨rfl, rfl, by simpa [hr, hv] using h.symm⟩))
    | true =>
      simp only [hr, hv, if_true, Bool.false_eq_true, if_false] at h
      cases hd : decode s.input.reqCmd with
      | request i =>
        rw [hd] at h
        obtain ⟨u, hu, rfl⟩ := advancePort_cases h
        exact .inr (.inl ⟨i, u, ⟨hr, hv, hd⟩, hu, rfl⟩)
      | illegal why =>
        rw [hd] at h
        exact .inr (.inr (.inl ⟨rfl, rfl, ⟨why, rfl⟩, by simpa using h.symm⟩))

/-- A request writes at most one family. -/
theorem writes_unique {i : Instr} {f g : Family} (hf : i.Writes f) (hg : i.Writes g) : f = g := by
  rcases hf with ⟨n, k, rfl⟩ | ⟨n, k, rfl⟩ | ⟨n, rfl⟩ <;> simpa [Instr.Writes] using hg

/-- What a request can do to the registers and the response: raise an error, answer a read, write the slot it names in
the bank of the family it names, or zero every register. -/
theorem exec_cases {i : Instr} {s t : State} (h : exec i s = .next t) :
    (∃ k, (k = .invalidSlot ∨ k = .indexOutOfRange) ∧ t = s.raise k) ∨
    (∃ d, t = s.respond d) ∨
    (∃ f x, i.Writes f ∧ i.slot < s.regs.count f ∧ t = (s.withRegs (s.regs.write f.bank i.slot x)).done) ∨
    (i = .reset ∧ t = s.zeroRegs.done) := by
  cases i with
  | getBit f n i =>
    rcases State.answer_cases h with ⟨k, hk, rfl⟩ | ⟨-, rfl⟩
    · rcases s.checkIndexed_cases f n i f.aw with ⟨-, e⟩ | ⟨-, -, e⟩ | ⟨-, -, e⟩ <;>
        simp [State.checkBit, e] at hk <;> simp [← hk]
    · exact .inr (.inl ⟨_, rfl⟩)
  | setBit f n i =>
    rcases State.answer_cases h with ⟨k, hk, rfl⟩ | ⟨hk, rfl⟩ <;>
      rcases s.checkIndexed_cases f n i f.aw with ⟨-, e⟩ | ⟨-, -, e⟩ | ⟨hn, -, e⟩ <;> simp [State.checkBit, e] at hk
    · simp [← hk]
    · simp [← hk]
    · exact .inr (.inr (.inl ⟨f, _, .inl ⟨_, _, rfl⟩, hn, rfl⟩))
  | getByte f n i =>
    rcases State.answer_cases h with ⟨k, hk, rfl⟩ | ⟨-, rfl⟩
    · rcases s.checkIndexed_cases f n i (f.aw / 8) with ⟨-, e⟩ | ⟨-, -, e⟩ | ⟨-, -, e⟩ <;>
        simp [State.checkByte, e] at hk <;> simp [← hk]
    · exact .inr (.inl ⟨_, rfl⟩)
  | setByte f n i =>
    rcases State.answer_cases h with ⟨k, hk, rfl⟩ | ⟨hk, rfl⟩ <;>
      rcases s.checkIndexed_cases f n i (f.aw / 8) with ⟨-, e⟩ | ⟨-, -, e⟩ | ⟨hn, -, e⟩ <;>
        simp [State.checkByte, e] at hk
    · simp [← hk]
    · simp [← hk]
    · exact .inr (.inr (.inl ⟨f, _, .inr (.inl ⟨_, _, rfl⟩), hn, rfl⟩))
  | getValue f n =>
    rcases State.answer_cases h with ⟨k, hk, rfl⟩ | ⟨-, rfl⟩
    · rcases s.checkValue_cases f n with ⟨-, e⟩ | ⟨-, e⟩ <;> simp [e] at hk
      simp [← hk]
    · exact .inr (.inl ⟨_, rfl⟩)
  | setValue f n =>
    rcases State.answer_cases h with ⟨k, hk, rfl⟩ | ⟨hk, rfl⟩ <;>
      rcases s.checkValue_cases f n with ⟨-, e⟩ | ⟨hn, e⟩ <;> simp [e] at hk
    · simp [← hk]
    · exact .inr (.inr (.inl ⟨f, _, .inr (.inr ⟨_, rfl⟩), hn, rfl⟩))
  | reset => exact .inr (.inr (.inr ⟨rfl, by simpa [exec, execReset] using h.symm⟩))

end Sys2Proof.Machine
end

