-- ==== Sys2Proof/Laws/PerInstr.lean ====
section
/-! SUPPORT. Facts about every operation as syntax, one lemma per constructor of Instr. -/

namespace Sys2Proof.Laws

/-- The number a concatenation holds: its high part shifted up, plus its low part. -/
theorem toNat_append_eq {m n : Nat} (x : BitVec m) (y : BitVec n) : (x ++ y).toNat = x.toNat * 2 ^ n + y.toNat := by
  rw [BitVec.toNat_append, ← Nat.shiftLeft_add_eq_or_of_lt y.isLt, Nat.shiftLeft_eq]

/-- Every field of a command word reads back what was laid out there, and RSVD reads 0 (30_encoding.md R81). -/
theorem cmdWord_fields {op fam slot idx : Nat} (ho : op < 16) (hf : fam < 16) (hs : slot < 256) (hi : idx < 1024) :
    opField (cmdWord op fam slot idx) = op ∧ famField (cmdWord op fam slot idx) = fam ∧
    slotField (cmdWord op fam slot idx) = slot ∧ idxField (cmdWord op fam slot idx) = idx ∧
    rsvdField (cmdWord op fam slot idx) = 0 := by
  have h : (cmdWord op fam slot idx).toNat = op + 16 * fam + 256 * slot + 65536 * idx := by
    simp only [cmdWord, toNat_append_eq, BitVec.toNat_ofNat]
    omega
  simp only [opField, famField, slotField, idxField, rsvdField, BitVec.extractLsb'_toNat, h,
    Nat.shiftRight_eq_div_pow]
  omega

theorem family_code_lt (f : Family) : f.code < 9 := by cases f <;> decide

/-- The encoding of a well-formed operation holds its OP, FAM, SLOT and IDX in their places, and RSVD = 0
(30_encoding.md R81 to R87). -/
def EncodeFields.Statement (i : Instr) : Prop :=
  i.wf = true → opField (encode i) = i.op ∧ famField (encode i) = i.fam ∧ slotField (encode i) = i.slot ∧
    idxField (encode i) = i.idx ∧ rsvdField (encode i) = 0

/-- The fields of an operation that uses SLOT and IDX. -/
theorem encodeFields_of {i : Instr} (ho : i.op < 16) (hf : i.fam < 16)
    (h : i.wf = true → i.slot < 256 ∧ i.idx < 1024) : EncodeFields.Statement i :=
  fun hw => cmdWord_fields ho hf (h hw).1 (h hw).2

theorem EncodeFields.getBit (f : Family) (n k : Nat) : EncodeFields.Statement (.getBit f n k) :=
  encodeFields_of (by simp [Instr.op]) (Nat.lt_of_lt_of_le (family_code_lt f) (by decide)) fun hw => by
    simp [Instr.wf, slotFits, idxFits, Instr.slot, Instr.idx] at *
    omega

theorem EncodeFields.setBit (f : Family) (n k : Nat) : EncodeFields.Statement (.setBit f n k) :=
  encodeFields_of (by simp [Instr.op]) (Nat.lt_of_lt_of_le (family_code_lt f) (by decide)) fun hw => by
    simp [Instr.wf, slotFits, idxFits, Instr.slot, Instr.idx] at *
    omega

theorem EncodeFields.getByte (f : Family) (n k : Nat) : EncodeFields.Statement (.getByte f n k) :=
  encodeFields_of (by simp [Instr.op]) (Nat.lt_of_lt_of_le (family_code_lt f) (by decide)) fun hw => by
    simp [Instr.wf, slotFits, idxFits, Instr.slot, Instr.idx] at *
    omega

theorem EncodeFields.setByte (f : Family) (n k : Nat) : EncodeFields.Statement (.setByte f n k) :=
  encodeFields_of (by simp [Instr.op]) (Nat.lt_of_lt_of_le (family_code_lt f) (by decide)) fun hw => by
    simp [Instr.wf, slotFits, idxFits, Instr.slot, Instr.idx] at *
    omega

theorem EncodeFields.getValue (f : Family) (n : Nat) : EncodeFields.Statement (.getValue f n) :=
  encodeFields_of (by simp [Instr.op]) (Nat.lt_of_lt_of_le (family_code_lt f) (by decide)) fun hw => by
    simp [Instr.wf, slotFits, Instr.slot, Instr.idx] at *
    omega

theorem EncodeFields.setValue (f : Family) (n : Nat) : EncodeFields.Statement (.setValue f n) :=
  encodeFields_of (by simp [Instr.op]) (Nat.lt_of_lt_of_le (family_code_lt f) (by decide)) fun hw => by
    simp [Instr.wf, slotFits, Instr.slot, Instr.idx] at *
    omega

theorem EncodeFields.reset : EncodeFields.Statement .reset :=
  encodeFields_of (by decide) (by decide) fun _ => by decide

end Sys2Proof.Laws
end

