-- ==== Sys2Proof/Tests/Slice0.lean ====
section
/-! SUPPORT. Small tests, their words and results taken from spec/30_encoding.md R94 and spec/95_test_vectors.md, and
for every statement with hypotheses a theorem that shows them met together. -/

-- One theorem after another: elaborated side by side, this many kernel evaluations ask for more threads than the
-- check's memory limit gives stacks to.
set_option Elab.async false

namespace Sys2Proof.Tests

open Sys2Proof.Machine

/-! ### Well-formedness: each check refuses an ill-formed term -/

theorem test_wf_get_bit_slot : (Instr.getBit .gpr64 256 0).wf = false := by decide
theorem test_wf_get_bit_index : (Instr.getBit .gpr64 255 1024).wf = false := by decide
theorem test_wf_set_bit_slot : (Instr.setBit .vec512 256 0).wf = false := by decide
theorem test_wf_set_bit_index : (Instr.setBit .vec512 0 1024).wf = false := by decide
theorem test_wf_get_byte_slot : (Instr.getByte .ip 256 0).wf = false := by decide
theorem test_wf_get_byte_index : (Instr.getByte .ip 0 1024).wf = false := by decide
theorem test_wf_set_byte_slot : (Instr.setByte .flags 256 0).wf = false := by decide
theorem test_wf_set_byte_index : (Instr.setByte .flags 0 1024).wf = false := by decide
theorem test_wf_get_value_slot : (Instr.getValue .gpr8 256).wf = false := by decide
theorem test_wf_set_value_slot : (Instr.setValue .gpr8 256).wf = false := by decide
theorem test_wf_accepts_the_largest : (Instr.getBit .gpr64 255 1023).wf = true := by decide
theorem test_wf_flag_positions_apart : (FlagPos.mk 0 6 7 7).wf = false := by decide
theorem test_wf_flag_position_in_range : (FlagPos.mk 0 6 7 64).wf = false := by decide
theorem test_wf_reference_flag_positions : FlagPos.reference.wf = true := by decide

/-! ### Decoding: words of R94 and of 95_test_vectors.md sections 2.2 to 2.6 -/

theorem test_decode_get_bit : decode 0x00800070 = .request (.getBit .vec256 0 128) := by decide
theorem test_decode_set_bit : decode 0x007F0061 = .request (.setBit .vec128 0 127) := by decide
theorem test_decode_get_byte : decode 0x00070302 = .request (.getByte .gpr64 3 7) := by decide
theorem test_decode_set_byte : decode 0x003F1F83 = .request (.setByte .vec512 31 63) := by decide
theorem test_decode_get_value : decode 0x00000F34 = .request (.getValue .gpr8 15) := by decide
theorem test_decode_set_value : decode 0x00000055 = .request (.setValue .ip 0) := by decide
theorem test_decode_reset : decode 0x00000006 = .request .reset := by decide
/-- The fields of R81 written out bit by bit: RSVD, IDX = 300, SLOT = 3, FAM = VEC512, OP = SET_BIT (E1). -/
theorem test_decode_bits : decode 0b000000_0100101100_00000011_1000_0001 = .request (.setBit .vec512 3 300) := by decide
theorem test_decode_gpr32 : decode 0x001F0311 = .request (.setBit .gpr32 3 31) := by decide
theorem test_decode_gpr16 : decode 0x00010322 = .request (.getByte .gpr16 3 1) := by decide
theorem test_decode_flags : decode 0x00070042 = .request (.getByte .flags 0 7) := by decide
theorem test_decode_reserved_bits : decode 0x04000000 = .illegal .reservedBits := by decide
theorem test_decode_reserved_op : decode 0x00000007 = .illegal .reservedOp := by decide
theorem test_decode_reserved_family : decode 0x00000090 = .illegal .reservedFamily := by decide
theorem test_decode_nonzero_index : decode 0x00010304 = .illegal .nonzeroIndex := by decide
theorem test_decode_nonzero_reset_field : decode 0x00000106 = .illegal .nonzeroResetField := by decide
theorem test_decode_table_word : decodeTableWord 32 0x00001F85 = some (.setValue .vec512 31) := by decide
theorem test_encode_set_value : encode (.setValue .vec512 31) = 0x00001F85 := by decide
theorem test_encode_get_bit : encode (.getBit .vec512 0 512) = 0x02000080 := by decide

/-! ### One request from the state S0 of 95_test_vectors.md section 2 -/

/-- S0: G[3], V[2] and IP are set, every other register is 0. -/
def s0 : State :=
  { State.reset with
    regs := ((State.reset.regs.write .g 3 0x1122334455667788).write .v 2 (BitVec.twoPow 512 511 ||| 5)).write .ip 0
      0xFFFFFFFFFFFFFFFF }

/-- S0 with a request presented. -/
def s0With (cmd : CmdWord) (wdata : Wide) : State :=
  { s0 with input := { rst := false, reqValid := true, reqCmd := cmd, reqWdata := wdata } }

/-- The status and the data of the response to a request from S0. -/
def answer (cmd : CmdWord) (wdata : Wide) : Option (StatusCode × Wide) :=
  (nextState? (step (s0With cmd wdata))).map fun t => (t.output.rspStatus, t.output.rspRdata)

/-- The registers after a request from S0. -/
def regsAfter (cmd : CmdWord) (wdata : Wide) : Option RegisterFile :=
  (nextState? (step (s0With cmd wdata))).map fun t => t.regs

theorem test_get_bit_msb_of_view : answer 0x00070330 0 = some (0, 1) := by decide +kernel
theorem test_get_bit_slot_before_index : answer 0x02582060 0 = some (2, 0) := by decide +kernel
theorem test_set_bit_keeps_upper : regsAfter 0x001F0311 1 = some (s0.regs.write .g 3 0x11223344D5667788) := by
  decide +kernel
theorem test_set_bit_past_view : (answer 0x00080331 1, regsAfter 0x00080331 1) = (some (1, 0), some s0.regs) := by
  decide +kernel
theorem test_get_byte_top : answer 0x003F0282 0 = some (0, 0x80) := by decide +kernel
theorem test_get_byte_past_view : answer 0x00040312 0 = some (1, 0) := by decide +kernel
theorem test_set_byte_low_bits_of_wdata : regsAfter 0x00010303 0x1FF = some (s0.regs.write .g 3 0x112233445566FF88) := by
  decide +kernel
theorem test_set_byte_top_of_last_slot : regsAfter 0x003F1F83 0x80 = some (s0.regs.write .v 31 (BitVec.twoPow 512 511)) := by
  decide +kernel
theorem test_get_value_narrow : answer 0x00000324 0 = some (0, 0x7788) := by decide +kernel
theorem test_get_value_low_view : answer 0x00000264 0 = some (0, 5) := by decide +kernel
theorem test_set_value_keeps_upper : regsAfter 0x00000275 0 = some (s0.regs.write .v 2 (BitVec.twoPow 512 511)) := by
  decide +kernel
theorem test_set_value_drops_high_wdata :
    regsAfter 0x00000265 (BitVec.twoPow 512 128 ||| 1) = some (s0.regs.write .v 2 (BitVec.twoPow 512 511 ||| 1)) := by
  decide +kernel
theorem test_reset_zeroes : regsAfter 0x00000006 0 = some State.reset.regs := by decide +kernel
theorem test_reset_with_family : (answer 0x00000016 0, regsAfter 0x00000016 0) = (some (4, 0), some s0.regs) := by
  decide +kernel

/-- S0 with rst = 1 and a request presented: the request is dropped (section 2.5). -/
theorem test_rst_wins :
    (nextState? (step { s0With 0x00000305 7 with input.rst := true })).map (fun t => (t.regs, t.output.rspValid)) =
      some (State.reset.regs, false) := by decide +kernel
theorem test_idle_step :
    (nextState? (step { s0With 0x00000305 7 with input.reqValid := false })).map
      (fun t => (t.regs, t.output.rspValid)) = some (s0.regs, false) := by decide +kernel
theorem test_fetch_word_runs_first :
    (nextState? (step (State.reset.withFetchWord 32 0x00000004))).map (fun t => t.output) = some ⟨true, 0, 0⟩ := by
  decide +kernel

/-! ### Value functions: 95_test_vectors.md section 2.1 -/

theorem test_from_u64 : wideFromU64 .w128 0xFFFFFFFFFFFFFFFF = 0x0000000000000000FFFFFFFFFFFFFFFF := by decide
theorem test_from_bytes : wideFromBytes .w256 [0x01, 0x02] = .value 0x0201 := by decide
theorem test_from_bytes_too_long : wideFromBytes .w128 (List.replicate 17 0) = .raised .sizeMismatch := by decide
theorem test_to_bytes :
    wideToBytes (W := .w128) 0x0102030405060708 = [8, 7, 6, 5, 4, 3, 2, 1, 0, 0, 0, 0, 0, 0, 0, 0] := by decide
theorem test_value_get_bit_past : wideGetBit (W := .w128) 5 128 = .raised .indexOutOfRange := by decide
theorem test_value_set_bit : wideSetBit (W := .w128) (BitVec.allOnes 128) 0 0 = .value (BitVec.allOnes 128 - 1) := by
  decide
theorem test_value_get_byte_past : wideGetByte (W := .w256) 0 32 = .raised .indexOutOfRange := by decide
theorem test_value_set_byte : wideSetByte (W := .w128) 0 15 0x80 = .value (BitVec.twoPow 128 127) := by decide
theorem test_add_loses_carry : wideAdd (W := .w128) (BitVec.allOnes 128) 2 = 1 := by decide
theorem test_add_carries_past_64 : wideAdd (W := .w128) 0xFFFFFFFFFFFFFFFF 1 = 0x10000000000000000 := by decide
theorem test_and : wideAnd (W := .w128) 0xF0 0x3C = 0x30 := by decide
theorem test_or : wideOr (W := .w128) 0xF0 0x3C = 0xFC := by decide
theorem test_xor : wideXor (W := .w128) 0xF0 0x3C = 0xCC := by decide
theorem test_shl_by_width : wideShl (W := .w128) 1 128 = 0 := by decide
theorem test_shl_loses_top : wideShl (W := .w512) 0xFF 508 = 0xF <<< 508 := by decide +kernel
theorem test_shr_fills_zero : wideShr (W := .w128) (BitVec.twoPow 128 127 ||| 1) 1 = BitVec.twoPow 128 126 := by decide
theorem test_zext : zextN 512 (0xFF : BitVec 8) = .value 0xFF := by decide +kernel
theorem test_zext_refuses : zextN 8 (0xFF : BitVec 16) = .refused .extensionNarrows := by decide
theorem test_sext : sextN 64 (0x8000 : BitVec 16) = .value 0xFFFFFFFFFFFF8000 := by decide
theorem test_sext_refuses : sextN 64 (0 : BitVec 0) = .refused .signOfNothing := by decide

/-! ### Assembler text: lines of 95_test_vectors.md and their words -/

/-- The command word and the write data of each request a line stands for. -/
def words (text : String) : Option (List (CmdWord × Wide)) :=
  (assembleLine .reference text).map fun rs => rs.map fun r => (encode r.instr, r.wdata)

theorem test_line_get_bit : words "get_bit ymm0, 127" = some [(0x007F0070, 0)] := by decide +kernel
theorem test_line_set_bit : words "set_bit g3d, 31, 1" = some [(0x001F0311, 1)] := by decide +kernel
theorem test_line_get_byte : words "get_byte g3w, 1" = some [(0x00010322, 0)] := by decide +kernel
theorem test_line_set_byte : words "set_byte g3, 7, 0xFF ; top byte" = some [(0x00070303, 0xFF)] := by decide +kernel
theorem test_line_get_value : words "get_value GPR8[15]" = some [(0x00000F34, 0)] := by decide +kernel
theorem test_line_set_value : words "set_value ip, 0x401000" = some [(0x00000055, 0x401000)] := by decide +kernel
theorem test_line_reset : words "reset" = some [(0x00000006, 0)] := by decide +kernel
theorem test_line_zset_value :
    words "zset_value g5d, 0x80000000" = some [(0x00000505, 0), (0x00000515, 0x80000000)] := by decide +kernel
theorem test_line_clear : words "clear zmm2" = some [(0x00000285, 0)] := by decide +kernel
theorem test_line_get_flag : words "get_flag CF" = some [(0x00000040, 0)] := by decide +kernel
theorem test_line_set_flag : words "set_flag ZF, 1" = some [(0x00060041, 1)] := by decide +kernel
theorem test_line_flag_index : words "get_bit flags, of" = some [(0x000B0040, 0)] := by decide +kernel
theorem test_line_comment : words "  ; nothing" = some [] := by decide +kernel
theorem test_line_bad_mnemonic : words "push g3" = none := by decide +kernel
theorem test_line_slot_too_large : words "get_value g256" = none := by decide +kernel
theorem test_identity : Config.identity 16 32 = "cpulib-regfile-g16-v32" := by decide +kernel

/-! ### Hypotheses of the statements, met by concrete states and operands -/

/-- The clauses of the bit rules, each at a boundary: the largest fields, slot = count, index = width, the last bit. -/
theorem witness_bit_rules :
    (255 ≤ 255 ∧ 1023 ≤ 1023) ∧ s0.regs.count .gpr64 ≤ 16 ∧
    (15 < s0.regs.count .gpr64 ∧ Family.gpr64.aw ≤ 64) ∧ (15 < s0.regs.count .gpr64 ∧ 63 < Family.gpr64.aw) ∧
    s0.regs.count .vec128 ≤ 32 ∧ (31 < s0.regs.count .vec128 ∧ Family.vec128.aw ≤ 128) ∧
    (31 < s0.regs.count .vec128 ∧ 127 < Family.vec128.aw) ∧ 63 < Family.gpr64.bw ∧ 511 < Family.vec128.bw := by
  decide +kernel

/-- The clauses of the byte rules, as for the bit rules. -/
theorem witness_byte_rules :
    (255 ≤ 255 ∧ 1023 ≤ 1023) ∧ s0.regs.count .flags ≤ 1 ∧
    (0 < s0.regs.count .flags ∧ Family.flags.aw / 8 ≤ 8) ∧ (0 < s0.regs.count .flags ∧ 7 < Family.flags.aw / 8) ∧
    s0.regs.count .gpr8 ≤ 16 ∧ (15 < s0.regs.count .gpr8 ∧ Family.gpr8.aw / 8 ≤ 1) ∧
    (15 < s0.regs.count .gpr8 ∧ 0 < Family.gpr8.aw / 8) ∧ 63 < Family.flags.bw := by
  decide +kernel

/-- The clauses of the value rules, as for the bit rules. -/
theorem witness_value_rules :
    255 ≤ 255 ∧ s0.regs.count .ip ≤ 1 ∧ 0 < s0.regs.count .ip ∧ s0.regs.count .vec256 ≤ 32 ∧
    31 < s0.regs.count .vec256 ∧ 511 < Family.vec256.bw := by decide +kernel

theorem witness_ResetFollowsItsRule :
    15 < s0.regs.slots .g ∧ 0 < s0.regs.slots .flags ∧ 0 < s0.regs.slots .ip ∧ 31 < s0.regs.slots .v := by
  decide +kernel

theorem witness_DecodeOfEncodeIsTheRequest : (Instr.getBit .vec512 255 1023).wf = true := by decide

theorem witness_EncodeOfDecodeIsTheWord : decode 0x03FFFF83 = .request (.setByte .vec512 255 1023) := by decide

/-- A decoded request, its step and its result, for the statements about a step that answers. -/
theorem witness_StepRunsTheDecodedRequest :
    (s0With 0x00000333 0).Performs (.setByte .gpr8 3 0) ∧
    ∃ t, exec (.setByte .gpr8 3 0) (s0With 0x00000333 0) = .next t := ⟨by unfold State.Performs; decide, _, rfl⟩

theorem witness_StepAnswersAnIllegalWord :
    (s0With 0xFFFFFFFF 0).input.rst = false ∧ (s0With 0xFFFFFFFF 0).input.reqValid = true ∧
    decode (s0With 0xFFFFFFFF 0).input.reqCmd = .illegal .reservedBits := by decide

theorem witness_IdleStepChangesNoRegister : s0.input.rst = false ∧ s0.input.reqValid = false := by decide

/-- A state with rst = 1, and the last slot of a block of the largest size. -/
theorem witness_PowerOnResetZeroesEveryRegister :
    State.input { s0 with input.rst := true } = { s0.input with rst := true } ∧ 31 < s0.regs.slots .v ∧
    254 < (State.powerUp 255 255).regs.slots .g := by decide +kernel

theorem witness_StatusFollowsTheCheckingOrder :
    (s0With 0x02582060 0).input.rst = false ∧ (s0With 0x02582060 0).input.reqValid = true := by decide

/-- A step that answers with an error. -/
theorem witness_FailedRequestLeavesNoTrace :
    ∃ t, step (s0With 0x00001001 1) = .next t ∧ t.output.rspValid = true ∧ t.output.rspStatus ≠ 0 :=
  ⟨_, rfl, rfl, by decide⟩

/-- A step that answers OK, for the statements about any step: ResponseExactlyForRequestWithoutReset,
PortAnswersOnlyItsOwnCodes, StepTakesInputsInOrder, EveryStepKeepsTheBankSizes, EveryRequestIsIdempotent (its request). -/
theorem witness_step_that_answers :
    ∃ t, step (s0With 0x00010041 1) = .next t ∧ t.output.rspValid = true := ⟨_, rfl, rfl⟩

theorem witness_EveryRequestIsIdempotent : ∃ t, exec (.setBit .flags 0 1) (s0With 0x00010041 1) = .next t := ⟨_, rfl⟩

theorem witness_EveryStepKeepsTheInvariant :
    (s0With 0x00010041 1).wf = true ∧ ∃ t, step (s0With 0x00010041 1) = .next t := ⟨by decide +kernel, _, rfl⟩

theorem witness_ResetMeetsTheInvariant : 1 ≤ 255 ∧ 255 ≤ 255 ∧ 1 ≤ 1 ∧ 1 ≤ 255 := by decide

/-- FLAGS changes under SET_BIT of FLAGS, and IP under SET_VALUE of IP. -/
theorem witness_FlagsAndIpChangeOnlyByTheirOwnWrites :
    (∃ t, step (s0With 0x00010041 1) = .next t ∧ t.regs.flags ≠ (s0With 0x00010041 1).regs.flags) ∧
    ∃ t, step (s0With 0x00000055 5) = .next t ∧ t.regs.ip ≠ (s0With 0x00000055 5).regs.ip :=
  ⟨⟨_, rfl, by decide +kernel⟩, ⟨_, rfl, by decide +kernel⟩⟩

/-- One step for each clause: a write of the last slot, a read, an error, an illegal word and an idle step. -/
theorem witness_StepTouchesAtMostOneSlot :
    ((∃ t, step (s0With 0x00001F85 1) = .next t) ∧ (s0With 0x00001F85 1).Performs (.setValue .vec512 31) ∧
      (Instr.setValue .vec512 31).Writes .vec512) ∧
    ((∃ t, step (s0With 0x00000324 0) = .next t) ∧ (s0With 0x00000324 0).Performs (.getValue .gpr16 3) ∧
      ∀ f, ¬ (Instr.getValue .gpr16 3).Writes f) ∧
    (∃ t, step (s0With 0x00001001 1) = .next t ∧ t.output.rspValid = true ∧ t.output.rspStatus ≠ 0) ∧
    ((∃ t, step (s0With 0xFFFFFFFF 0) = .next t) ∧ (s0With 0xFFFFFFFF 0).input.rst = false ∧
      ∀ i, ¬ (s0With 0xFFFFFFFF 0).Performs i) ∧
    ((∃ t, step s0 = .next t) ∧ s0.input.rst = false ∧ ∀ i, ¬ s0.Performs i) := by
  refine ⟨⟨⟨_, rfl⟩, by unfold State.Performs; decide, .inr (.inr ⟨_, rfl⟩)⟩,
    ⟨⟨_, rfl⟩, by unfold State.Performs; decide, fun f => by simp [Instr.Writes]⟩, ⟨_, rfl, rfl, by decide⟩,
    ⟨⟨_, rfl⟩, rfl, fun i h => ?_⟩, ⟨_, rfl⟩, rfl, fun i h => Bool.false_ne_true h.2.1⟩
  have illegal : decode 0xFFFFFFFF = .illegal .reservedBits := by decide
  exact Decoded.noConfusion (illegal.symm.trans h.2.2)

/-- Write data that differs from the presented data in an unused bit only. -/
theorem witness_UnusedWriteDataHasNoEffect :
    (∀ k, k < dataBits (.setByte .gpr64 3 1) →
      (0xFF : Wide).getLsbD k = (s0With 0x00010303 0x1FF).input.reqWdata.getLsbD k) ∧
    (0xFF : Wide) ≠ (s0With 0x00010303 0x1FF).input.reqWdata := by decide +kernel

/-- Two states with one input and other register contents, both answering. -/
theorem witness_StatusIgnoresRegisterContents :
    (s0With 0x00080330 0).input = (State.withRegs (s0With 0x00080330 0) State.reset.regs).input ∧
    (s0With 0x00080330 0).regs.SameSize State.reset.regs ∧
    ∃ t t', step (s0With 0x00080330 0) = .next t ∧
      step (State.withRegs (s0With 0x00080330 0) State.reset.regs) = .next t' ∧ t.output.rspValid = true :=
  ⟨rfl, by unfold RegisterFile.SameSize; decide +kernel, _, _, rfl, rfl, rfl⟩

theorem witness_ResetsInARowLeaveThePowerUpState :
    [PortIn.mk true true 0x00000305 7, PortIn.mk false true 6 0] ≠ [] ∧
    ∀ p ∈ [PortIn.mk true true 0x00000305 7, PortIn.mk false true 6 0],
      p.rst = true ∨ (p.reqValid = true ∧ p.reqCmd = 6) := by decide +kernel

theorem witness_WrittenBitShowsInEveryView :
    Family.vec128.bank = Family.vec512.bank ∧ 31 < s0.regs.count .vec128 ∧ 127 < Family.vec128.aw ∧
    127 < Family.vec512.aw := by decide +kernel

theorem witness_WrittenValueShowsInEveryView :
    Family.gpr16.bank = Family.gpr64.bank ∧ 15 < s0.regs.count .gpr16 := by decide +kernel

theorem witness_BytesAndBitsShareStorage :
    31 < s0.regs.count .vec512 ∧ 63 < Family.vec512.aw / 8 ∧ 7 < 8 := by decide +kernel

theorem witness_NoBitIsHardwired :
    (31 < s0.regs.slots .v ∧ 511 < Bank.v.width) ∧ 0 < s0.regs.slots .flags ∧ 63 < Bank.flags.width := by
  decide +kernel

/-- The first and the last request of a save of S0. -/
theorem witness_SaveReadsEveryRegister :
    s0.regs.wf = true ∧ (restoreRequests s0.regs)[0]?.isSome = true ∧
    (restoreRequests s0.regs)[49]?.isSome = true := by decide +kernel

theorem witness_RestoreWritesEveryRegister : s0.regs.wf = true ∧ s0.regs.SameSize State.reset.regs :=
  ⟨by decide +kernel, by unfold RegisterFile.SameSize; decide +kernel⟩

theorem witness_ZsetValueClearsTheUpperBits :
    31 < s0.regs.count .vec256 ∧ 31 ≤ 255 ∧ 2 ^ 512 - 1 < 2 ^ 512 := ⟨by decide +kernel, by decide, by decide +kernel⟩

theorem witness_SetFlagWritesTheNamedBit : FlagPos.reference.wf = true ∧ 1 ≤ 1 ∧ 63 < 64 := by decide

/-- Byte lists of the exact width and one past it. -/
theorem witness_FromBytesPacksOrRaisesSizeMismatch :
    WideWidth.bits .w128 / 8 < (List.replicate 17 (0 : Byte)).length ∧
    (List.replicate 16 (0 : Byte)).length ≤ WideWidth.bits .w128 / 8 ∧ 127 < WideWidth.bits .w128 := by decide

theorem witness_BytesRoundTrip : (List.replicate 64 (7 : Byte)).length = WideWidth.bits .w512 / 8 := by decide

/-- The first index past a value and the last inside it, for bits and for bytes. -/
theorem witness_value_access :
    (WideWidth.bits .w256 ≤ 256 ∧ 255 < WideWidth.bits .w256 ∧ 0 ≠ 255) ∧
    (WideWidth.bits .w256 / 8 ≤ 32 ∧ 31 < WideWidth.bits .w256 / 8 ∧ 7 < 8 ∧ 0 / 8 ≠ 31) := by decide

/-- A narrowing by one bit and an extension by none, of values of at least one bit. -/
theorem witness_ExtensionsKeepTheValueOrRefuse : 1 ≤ 8 ∧ 7 < 8 ∧ 8 ≤ 8 ∧ 0 ≤ 0 := by decide

end Sys2Proof.Tests
end

section
/-! PROOFS. The step of the block and its invariant (00_scope.md R6 to R9; 60_exceptions.md R182, R188, R194). -/

namespace Sys2Proof.Machine

/-! ### One equation per case of a step -/

theorem step_of_idle {s : State} (hr : s.input.rst = false) (hv : s.input.reqValid = false) :
    step s = .next s.idleStep := by
  simp [step, servePort, hr, hv]

theorem step_of_performs {s : State} {i : Instr} (h : s.Performs i) : step s = advancePort (exec i s) := by
  obtain ⟨hr, hv, hd⟩ := h
  simp [step, servePort, hr, hv, hd]

/-! ### What a request and a step do to the sizes of the banks -/

@[simp] theorem RegisterFile.sameSize_refl (r : RegisterFile) : r.SameSize r := ⟨rfl, rfl⟩

theorem exec_sameSize {i : Instr} {s t : State} (h : exec i s = .next t) : s.regs.SameSize t.regs := by
  rcases exec_cases h with ⟨k, -, rfl⟩ | ⟨d, rfl⟩ | ⟨f, x, -, -, rfl⟩ | ⟨-, rfl⟩
  case inl => exact s.regs.sameSize_refl
  case inr.inl => exact s.regs.sameSize_refl
  case inr.inr.inl => exact s.regs.sameSize_write f.bank i.slot x
  case inr.inr.inr => exact s.regs.sameSize_zeroed

theorem step_sameSize {s t : State} (h : step s = .next t) : s.regs.SameSize t.regs := by
  rcases step_cases h with ⟨-, rfl⟩ | ⟨i, u, -, hu, rfl⟩ | ⟨-, -, -, rfl⟩ | ⟨-, -, rfl⟩
  case inl => exact s.regs.sameSize_zeroed
  case inr.inl => simpa using exec_sameSize hu
  case inr.inr.inl => exact s.regs.sameSize_refl
  case inr.inr.inr => exact s.regs.sameSize_refl

/-! ### What a request and a step leave on the port -/

theorem PortOut.legal_of_no_response {o : PortOut} (h : o.rspValid = false) : o.legal = true := by
  simp [PortOut.legal, h]

theorem PortOut.legal_of_ok {o : PortOut} (h : o.rspStatus = okCode) : o.legal = true := by
  simp [PortOut.legal, h]

/-- SizeMismatch is the one error that the port never answers (60_exceptions.md R185). -/
theorem State.raise_legal (s : State) {k : ErrorKind} (h : k ≠ .sizeMismatch) : (s.raise k).output.legal = true := by
  cases k with
  | sizeMismatch => exact absurd rfl h
  | indexOutOfRange => simp [PortOut.legal]
  | invalidSlot => simp [PortOut.legal]
  | illegalRequest => simp [PortOut.legal]

theorem exec_rspValid {i : Instr} {s t : State} (h : exec i s = .next t) : t.output.rspValid = true := by
  rcases exec_cases h with ⟨k, -, rfl⟩ | ⟨d, rfl⟩ | ⟨f, x, -, -, rfl⟩ | ⟨-, rfl⟩ <;> rfl

theorem exec_output_legal {i : Instr} {s t : State} (h : exec i s = .next t) : t.output.legal = true := by
  rcases exec_cases h with ⟨k, hk, rfl⟩ | ⟨d, rfl⟩ | ⟨f, x, -, -, rfl⟩ | ⟨-, rfl⟩
  case inl => exact s.raise_legal (by rcases hk with rfl | rfl <;> decide)
  all_goals exact PortOut.legal_of_ok rfl

/-- Whatever the port showed before, a step leaves a legal response or none. -/
theorem step_output_legal {s t : State} (h : step s = .next t) : t.output.legal = true := by
  rcases step_cases h with ⟨-, rfl⟩ | ⟨i, u, -, hu, rfl⟩ | ⟨-, -, -, rfl⟩ | ⟨-, -, rfl⟩
  case inl => exact PortOut.legal_of_no_response rfl
  case inr.inl => simpa using exec_output_legal hu
  case inr.inr.inl => exact s.raise_legal (by decide)
  case inr.inr.inr => exact PortOut.legal_of_no_response rfl

/-! ### The invariant -/

theorem State.wf_iff (s : State) : s.wf = true ↔ s.regs.wf = true ∧ s.output.legal = true := by
  simp [State.wf]

theorem step_preserves_wf {s t : State} (hs : s.wf = true) (h : step s = .next t) : t.wf = true := by
  obtain ⟨hregs, -⟩ := s.wf_iff.mp hs
  have hregs' : t.regs.wf = true := (step_sameSize h).wf.trans hregs
  exact t.wf_iff.mpr ⟨hregs', step_output_legal h⟩

theorem State.powerUp_wf {ngpr nvec : Nat} (hg : 1 ≤ ngpr ∧ ngpr ≤ 255) (hv : 1 ≤ nvec ∧ nvec ≤ 255) :
    (State.powerUp ngpr nvec).wf = true := by
  have hregs : (RegisterFile.powerUp ngpr nvec).wf = true := by
    simp [RegisterFile.wf, RegisterFile.powerUp, Config.countOk, hg, hv]
  exact (State.wf_iff _).mpr ⟨hregs, PortOut.legal_of_no_response rfl⟩

/-! ### The obligations of 00_scope.md -/

/-- Settles O23: the sizes of the banks carry the counts over, and the response is legal whatever stood there before. -/
theorem everyStepKeepsTheInvariant : Obligations.EveryStepKeepsTheInvariant :=
  fun _ _ => step_preserves_wf

/-- Settles O17, by the four cases of a step. -/
theorem responseExactlyForRequestWithoutReset : Obligations.ResponseExactlyForRequestWithoutReset := by
  intro s t h
  rcases step_cases h with ⟨hr, rfl⟩ | ⟨i, u, ⟨hr, hv, -⟩, hu, rfl⟩ | ⟨hr, hv, -, rfl⟩ | ⟨hr, hv, rfl⟩
  case inl => simp [hr, State.resetStep]
  case inr.inl => simp [hr, hv, exec_rspValid hu]
  case inr.inr.inl => simp [hr, hv, State.illegalStep]
  case inr.inr.inr => simp [hr, hv, State.idleStep]

/-- Settles O13. -/
theorem stepRunsTheDecodedRequest : Obligations.StepRunsTheDecodedRequest := by
  intro s t i hr hv hd hexec
  calc step s = advancePort (exec i s) := step_of_performs ⟨hr, hv, hd⟩
    _ = advancePort (.next t) := by rw [hexec]
    _ = .next t.nextInput := rfl

/-- Settles O15. -/
theorem idleStepChangesNoRegister : Obligations.IdleStepChangesNoRegister :=
  fun s hr hv => ⟨s.idleStep, step_of_idle hr hv, rfl, rfl⟩

/-- Settles O24: State.reset is the block of the reference size. -/
theorem resetMeetsTheInvariant : Obligations.ResetMeetsTheInvariant :=
  ⟨State.powerUp_wf (by decide) (by decide),
    fun _ _ hg hg' hv hv' => State.powerUp_wf ⟨hg, hg'⟩ ⟨hv, hv'⟩⟩

end Sys2Proof.Machine
end

section
/-! PROOFS. The registers and their views: sizes, frames, and one slot seen through several views (10_state.md R33 to
R47). -/

namespace Sys2Proof

/-! ### Families and their banks -/

theorem Family.aw_le_wide (f : Family) : f.aw ≤ 512 := f.aw_le_width.trans f.bank.width_le

theorem Family.eq_flags_of_bank {f : Family} (h : f.bank = .flags) : f = .flags := by
  cases f <;> simp [Family.bank] at h ⊢

theorem Family.eq_ip_of_bank {f : Family} (h : f.bank = .ip) : f = .ip := by
  cases f <;> simp [Family.bank] at h ⊢

/-- Every bank has a family whose view is the whole slot. -/
theorem Bank.exists_whole_view (b : Bank) : ∃ f : Family, f.bank = b ∧ f.aw = b.width := by
  cases b with
  | g => exact ⟨.gpr64, rfl, rfl⟩
  | flags => exact ⟨.flags, rfl, rfl⟩
  | ip => exact ⟨.ip, rfl, rfl⟩
  | v => exact ⟨.vec512, rfl, rfl⟩

end Sys2Proof

namespace Sys2Proof.Machine

/-! ### What a request with valid operands answers -/

theorem exec_getBit_ok {f : Family} {n i : Nat} {s : State} (hn : n < s.regs.count f) (hi : i < f.aw) :
    exec (.getBit f n i) s = .next (s.respond (readData (s.regs.viewBit f n i))) := by
  simp [exec, execGetBit, State.checkBit, State.checkIndexed_ok hn hi, State.answer]

theorem exec_setBit_ok {f : Family} {n i : Nat} {s : State} (hn : n < s.regs.count f) (hi : i < f.aw) :
    exec (.setBit f n i) s = .next (s.withRegs (s.regs.setViewBit f n i (bitOperand s.wdata))).done := by
  simp [exec, execSetBit, State.checkBit, State.checkIndexed_ok hn hi, State.answer]

theorem exec_getByte_ok {f : Family} {n j : Nat} {s : State} (hn : n < s.regs.count f) (hj : j < f.aw / 8) :
    exec (.getByte f n j) s = .next (s.respond (readData (s.regs.viewByte f n j))) := by
  simp [exec, execGetByte, State.checkByte, State.checkIndexed_ok hn hj, State.answer]

theorem exec_getValue_ok {f : Family} {n : Nat} {s : State} (hn : n < s.regs.count f) :
    exec (.getValue f n) s = .next (s.respond (readData (s.regs.aliasRead f n))) := by
  simp [exec, execGetValue, State.checkValue_ok hn, State.answer]

theorem exec_setValue_ok {f : Family} {n : Nat} {s : State} (hn : n < s.regs.count f) :
    exec (.setValue f n) s = .next (s.withRegs (s.regs.aliasWrite f n (valueOperand f s.wdata))).done := by
  simp [exec, execSetValue, State.checkValue_ok hn, State.answer]

/-- An answer whose effect is only a response writes no register, whatever the checks found. -/
theorem State.answer_respond_keeps_regs (s : State) (e : Option ErrorKind) (d : Wide) :
    ∃ t, s.answer e (s.respond d) = .next t ∧ t.regs = s.regs := by
  cases e with
  | none => exact ⟨_, rfl, rfl⟩
  | some k => exact ⟨_, rfl, rfl⟩

/-! ### The data words of the port -/

/-- A result no wider than rsp_rdata keeps every bit there. -/
theorem getLsbD_readData {w : Nat} (x : BitVec w) (hw : w ≤ 512) (k : Nat) :
    (readData x).getLsbD k = x.getLsbD k := by
  by_cases hk : k < 512
  · simp [readData, hk]
  · simp [readData, hk, BitVec.getLsbD_of_ge x k (by omega)]

theorem readData_bit (b : BitVec 1) : readData b = if b.getLsbD 0 then 1 else 0 := by
  obtain rfl | rfl := BitVec.eq_zero_or_eq_one b
  · simp [readData]
  · simp [readData]

theorem getLsbD_bitOperand (w : Wide) : (bitOperand w).getLsbD 0 = w.getLsbD 0 := by
  rw [bitOperand, getLsbD_takeField]; simp

theorem getLsbD_valueOperand (f : Family) (w : Wide) (k : Nat) (hk : k < f.aw) :
    (valueOperand f w).getLsbD k = w.getLsbD k := by
  rw [valueOperand, getLsbD_takeField]; simp [hk]

/-! ### Reading through a view -/

theorem RegisterFile.getLsbD_viewBit (r : RegisterFile) (f : Family) (n i : Nat) :
    (r.viewBit f n i).getLsbD 0 = (r.read f.bank n).getLsbD i := by
  rw [RegisterFile.viewBit, getLsbD_takeField]; simp

theorem RegisterFile.getLsbD_viewByte (r : RegisterFile) (f : Family) (n j k : Nat) (hk : k < 8) :
    (r.viewByte f n j).getLsbD k = (r.read f.bank n).getLsbD (8 * j + k) := by
  rw [RegisterFile.viewByte, getLsbD_takeByte]; simp [hk]

theorem RegisterFile.getLsbD_aliasRead (r : RegisterFile) (f : Family) (n k : Nat) :
    (r.aliasRead f n).getLsbD k = (decide (k < f.aw) && (r.read f.bank n).getLsbD k) := by
  rw [RegisterFile.aliasRead, getLsbD_takeField, Nat.zero_add]

/-! ### Writing through a view -/

/-- Families of one bank have the same slots (10_state.md R33). -/
theorem RegisterFile.count_eq_of_bank_eq (r : RegisterFile) {f g : Family} (h : f.bank = g.bank) :
    r.count f = r.count g := congrArg r.slots h

@[simp] theorem RegisterFile.count_setViewBit (r : RegisterFile) (f g : Family) (n i : Nat) (b : BitVec 1) :
    (r.setViewBit f n i b).count g = r.count g := r.count_write ..

@[simp] theorem RegisterFile.count_aliasWrite (r : RegisterFile) (f g : Family) (n : Nat) (x : BitVec f.aw) :
    (r.aliasWrite f n x).count g = r.count g := r.count_write ..

/-- The slot that SET_BIT leaves, bit by bit. -/
theorem RegisterFile.getLsbD_read_setViewBit (r : RegisterFile) (f : Family) (n i : Nat) (b : BitVec 1) (k : Nat)
    (hn : n < r.count f) (hk : k < f.bank.width) :
    ((r.setViewBit f n i b).read f.bank n).getLsbD k =
      if k = i then b.getLsbD 0 else (r.read f.bank n).getLsbD k := by
  rw [RegisterFile.setViewBit, r.read_write_same _ _ _ hn, getLsbD_putField _ _ _ _ hk]
  have hbit : (i ≤ k ∧ k < i + 1) ↔ k = i := by omega
  by_cases h : k = i
  · simp [h]
  · simp only [hbit, h, if_false]

/-- The slot that SET_VALUE leaves, bit by bit (10_state.md R37). -/
theorem RegisterFile.getLsbD_read_aliasWrite (r : RegisterFile) (f : Family) (n : Nat) (x : BitVec f.aw) (k : Nat)
    (hn : n < r.count f) (hk : k < f.bank.width) :
    ((r.aliasWrite f n x).read f.bank n).getLsbD k =
      if k < f.aw then x.getLsbD k else (r.read f.bank n).getLsbD k := by
  rw [RegisterFile.aliasWrite, r.read_write_same _ _ _ hn, getLsbD_putField _ _ _ _ hk]
  simp

/-! ### Which registers a request and a step can change -/

/-- The request whose step changes a slot is RESET, or a write that names this slot of this bank. -/
theorem exec_read_ne {i : Instr} {s t : State} {b : Bank} {n : Nat} (h : exec i s = .next t) (hn : n < s.regs.slots b)
    (hne : t.regs.read b n ≠ s.regs.read b n) : i = .reset ∨ ∃ f, i.Writes f ∧ f.bank = b ∧ i.slot = n := by
  rcases exec_cases h with ⟨k, -, rfl⟩ | ⟨d, rfl⟩ | ⟨f, x, hw, hs, rfl⟩ | ⟨hi, -⟩
  case inl => exact absurd rfl hne
  case inr.inl => exact absurd rfl hne
  case inr.inr.inl =>
    refine .inr ⟨f, hw, ?_⟩
    by_contra hsame
    have hother : b ≠ f.bank ∨ n ≠ i.slot := (not_and_or.mp hsame).imp Ne.symm Ne.symm
    exact hne (s.regs.read_write_other f.bank b i.slot n x hs hn hother)
  case inr.inr.inr => exact .inl hi

/-- The step that changes a slot is a reset of either kind, or performs a write that names this slot of this bank. -/
theorem step_read_ne {s t : State} {b : Bank} {n : Nat} (h : step s = .next t) (hn : n < s.regs.slots b)
    (hne : t.regs.read b n ≠ s.regs.read b n) :
    s.input.rst = true ∨ s.Performs .reset ∨ ∃ i f, s.Performs i ∧ i.Writes f ∧ f.bank = b ∧ i.slot = n := by
  rcases step_cases h with ⟨hr, -⟩ | ⟨i, u, hp, hu, rfl⟩ | ⟨-, -, -, rfl⟩ | ⟨-, -, rfl⟩
  case inl => exact .inl hr
  case inr.inl =>
    obtain rfl | ⟨f, hf⟩ := exec_read_ne hu hn hne
    · exact .inr (.inl hp)
    · exact .inr (.inr ⟨i, f, hp, hf⟩)
  case inr.inr.inl => exact absurd rfl hne
  case inr.inr.inr => exact absurd rfl hne

/-- Where a bank has one family only, a write of that bank is a write of that family. -/
theorem step_read_ne_of_sole_family {s t : State} {f : Family} {n : Nat} (hf : ∀ g : Family, g.bank = f.bank → g = f)
    (h : step s = .next t) (hn : n < s.regs.slots f.bank) (hne : t.regs.read f.bank n ≠ s.regs.read f.bank n) :
    s.input.rst = true ∨ s.Performs .reset ∨ ∃ i, s.Performs i ∧ i.Writes f := by
  refine (step_read_ne h hn hne).imp_right (Or.imp_right ?_)
  rintro ⟨i, g, hp, hw, hb, -⟩
  exact ⟨i, hp, hf g hb ▸ hw⟩

/-! ### The obligations of 10_state.md -/

/-- Settles O8, by evaluating the table. -/
theorem familyTableIsTheRules : Obligations.FamilyTableIsTheRules := fun _ => rfl

/-- Settles O25. -/
theorem everyStepKeepsTheBankSizes : Obligations.EveryStepKeepsTheBankSizes :=
  fun _ _ => step_sameSize

/-- Settles O27: the three reads are answers whose effect is only a response. -/
theorem readsWriteNoRegister : Obligations.ReadsWriteNoRegister :=
  fun _ _ _ s => ⟨s.answer_respond_keeps_regs _ _, s.answer_respond_keeps_regs _ _, s.answer_respond_keeps_regs _ _⟩

/-- Settles O26: FLAGS and IP are slot 0 of banks that one family each addresses. -/
theorem flagsAndIpChangeOnlyByTheirOwnWrites : Obligations.FlagsAndIpChangeOnlyByTheirOwnWrites :=
  fun _ _ h => ⟨step_read_ne_of_sole_family (f := .flags) (n := 0) (fun _ => Family.eq_flags_of_bank) h Nat.one_pos,
    step_read_ne_of_sole_family (f := .ip) (n := 0) (fun _ => Family.eq_ip_of_bank) h Nat.one_pos⟩

/-- Settles O33: both views show the bit of the one backing slot. -/
theorem writtenBitShowsInEveryView : Obligations.WrittenBitShowsInEveryView := by
  intro f g n i s hb hn hif hig
  refine ⟨_, _, exec_setBit_ok hn hif, exec_getBit_ok ?_ hig, ?_⟩
  · simpa [← s.regs.count_eq_of_bank_eq hb] using hn
  · have hbit : ((s.regs.setViewBit f n i (bitOperand s.wdata)).viewBit g n i).getLsbD 0 = s.wdata.getLsbD 0 := by
      rw [RegisterFile.getLsbD_viewBit, ← hb,
        s.regs.getLsbD_read_setViewBit f n i _ i hn (hif.trans_le f.aw_le_width), if_pos rfl, getLsbD_bitOperand]
    simp only [State.respond_output, State.done_regs, State.withRegs_regs, readData_bit, hbit]
    rfl

/-- Settles O34, bit by bit of the backing slot. -/
theorem writtenValueShowsInEveryView : Obligations.WrittenValueShowsInEveryView := by
  intro f g n s hb hn
  refine ⟨_, _, exec_setValue_ok hn, exec_getValue_ok ?_, rfl, rfl, fun k => ?_⟩
  · simpa [← s.regs.count_eq_of_bank_eq hb] using hn
  · simp only [State.respond_output, State.done_regs, State.withRegs_regs, getLsbD_readData _ g.aw_le_wide,
      RegisterFile.getLsbD_aliasRead]
    by_cases hk : k < g.aw
    · have hkw : k < f.bank.width := hb ▸ hk.trans_le g.aw_le_width
      rw [← hb, s.regs.getLsbD_read_aliasWrite f n _ k hn hkw]
      by_cases hkf : k < f.aw
      · rw [if_pos hkf, if_pos hkf, getLsbD_valueOperand f _ k hkf]; rfl
      · rw [if_neg hkf, if_neg hkf]
    · simp [hk]

/-- Settles O35: the byte and the bit are read from the same bit of the backing slot. -/
theorem bytesAndBitsShareStorage : Obligations.BytesAndBitsShareStorage := by
  intro f n j k s hn hj hk
  have hi : 8 * j + k < f.aw := by have := f.aw_bytes; omega
  refine ⟨_, _, exec_getByte_ok hn hj, exec_getBit_ok hn hi, rfl, rfl, ?_⟩
  calc (readData (s.regs.viewBit f n (8 * j + k))).getLsbD 0
      = (s.regs.read f.bank n).getLsbD (8 * j + k) := by
        rw [getLsbD_readData _ (by decide), RegisterFile.getLsbD_viewBit]
    _ = (readData (s.regs.viewByte f n j)).getLsbD k := by
        rw [getLsbD_readData _ (by decide), RegisterFile.getLsbD_viewByte _ _ _ _ _ hk]

/-- Settles O36: SET_BIT through the view of the whole slot, with the value as its write data. -/
theorem noBitIsHardwired : Obligations.NoBitIsHardwired := by
  intro s b n k v hn hk
  obtain ⟨f, rfl, haw⟩ := b.exists_whole_view
  refine ⟨f, (BitVec.ofBool v).setWidth 512, _, rfl, exec_setBit_ok hn (haw ▸ hk), ?_⟩
  simp only [State.done_regs, State.withRegs_regs, State.withWdata_regs]
  rw [s.regs.getLsbD_read_setViewBit f n k _ k hn hk, if_pos rfl, getLsbD_bitOperand]
  simp [State.wdata]

end Sys2Proof.Machine
end

section
/-! PROOFS. The register address space: what a step leaves unchanged, and a request performed again (20_memory.md R64,
R67). -/

namespace Sys2Proof.Machine

/-! ### Steps that change no register, and steps that change one slot -/

/-- A step performs one request: the one its command word decodes to. -/
theorem State.Performs.unique {s : State} {i j : Instr} (hi : s.Performs i) (hj : s.Performs j) : i = j := by
  obtain ⟨-, -, hdi⟩ := hi
  obtain ⟨-, -, hdj⟩ := hj
  exact Decoded.request.inj (hdi.symm.trans hdj)

theorem State.Performs.rst_ne {s : State} {i : Instr} (h : s.Performs i) : s.input.rst ≠ true := by
  obtain ⟨hr, -, -⟩ := h
  simp [hr]

theorem reset_writes_nothing (f : Family) : ¬ Instr.reset.Writes f := by simp [Instr.Writes]

/-- A step that is no reset of either kind and performs no write changes no register. -/
theorem step_regs_of_no_write {s t : State} (h : step s = .next t) (hr : s.input.rst ≠ true)
    (hreset : ¬ s.Performs .reset) (hw : ∀ i f, s.Performs i → ¬ i.Writes f) : t.regs = s.regs := by
  refine s.regs.ext_read t.regs (step_sameSize h) fun b n hn => ?_
  by_contra hne
  rcases step_read_ne h hn hne with hrst | hp | ⟨i, f, hp, hwrites, -, -⟩
  · exact hr hrst
  · exact hreset hp
  · exact hw i f hp hwrites

theorem step_sameBut_of_writes {s t : State} {i : Instr} {f : Family} (h : step s = .next t) (hp : s.Performs i)
    (hw : i.Writes f) : s.regs.SameBut t.regs f.bank i.slot := by
  refine ⟨step_sameSize h, fun b n hn hother => ?_⟩
  by_contra hne
  rcases step_read_ne h hn hne with hrst | hreset | ⟨j, g, hj, hwg, rfl, rfl⟩
  · exact hp.rst_ne hrst
  · obtain rfl := hp.unique hreset
    exact reset_writes_nothing f hw
  · obtain rfl := hp.unique hj
    obtain rfl := writes_unique hw hwg
    simp at hother

/-- A request answered with an error writes no register (60_exceptions.md R188). -/
theorem exec_regs_of_error {i : Instr} {s t : State} (h : exec i s = .next t) (he : t.output.rspStatus ≠ 0) :
    t.regs = s.regs := by
  rcases exec_cases h with ⟨k, -, rfl⟩ | ⟨d, rfl⟩ | ⟨f, x, -, -, rfl⟩ | ⟨-, rfl⟩
  case inl => rfl
  all_goals exact absurd rfl he

theorem step_regs_of_error {s t : State} (h : step s = .next t) (hv : t.output.rspValid = true)
    (he : t.output.rspStatus ≠ 0) : t.regs = s.regs := by
  rcases step_cases h with ⟨-, rfl⟩ | ⟨i, u, -, hu, rfl⟩ | ⟨-, -, -, rfl⟩ | ⟨-, -, rfl⟩
  case inl => cases hv
  case inr.inl => simpa using exec_regs_of_error hu he
  case inr.inr.inl => rfl
  case inr.inr.inr => rfl

/-! ### Writing one field of a slot, and writing it again -/

/-- The write that SET_BIT, SET_BYTE and SET_VALUE have in common: one field of a backing slot, the rest kept. -/
def RegisterFile.putSlot {len : Nat} (r : RegisterFile) (b : Bank) (n lo : Nat) (d : BitVec len) : RegisterFile :=
  r.write b n (putField (r.read b n) lo d)

theorem RegisterFile.putSlot_putSlot {len : Nat} (r : RegisterFile) (b : Bank) (n lo : Nat) (d : BitVec len)
    (hn : n < r.slots b) : (r.putSlot b n lo d).putSlot b n lo d = r.putSlot b n lo d := by
  unfold RegisterFile.putSlot
  rw [r.read_write_same b n _ hn, r.write_write, putField_putField]

theorem RegisterFile.zeroed_zeroed (r : RegisterFile) : r.zeroed.zeroed = r.zeroed := by
  simp [RegisterFile.zeroed, RegisterFile.powerUp]

/-! ### The checks read only the sizes of the banks -/

theorem RegisterFile.SameSize.count {r r' : RegisterFile} (h : r.SameSize r') (f : Family) : r'.count f = r.count f :=
  h.slots f.bank

theorem State.checkIndexed_of_sameSize {s t : State} (h : s.regs.SameSize t.regs) (f : Family) (n i limit : Nat) :
    t.checkIndexed f n i limit = s.checkIndexed f n i limit := by
  simp only [State.checkIndexed, h.count]

theorem State.checkValue_of_sameSize {s t : State} (h : s.regs.SameSize t.regs) (f : Family) (n : Nat) :
    t.checkValue f n = s.checkValue f n := by
  simp only [State.checkValue, h.count]

theorem State.slot_lt_of_checkIndexed {s : State} {f : Family} {n i limit : Nat}
    (h : s.checkIndexed f n i limit = none) : n < s.regs.count f := by
  by_contra hn
  simp [State.checkIndexed_slot i limit (Nat.le_of_not_lt hn)] at h

theorem State.slot_lt_of_checkValue {s : State} {f : Family} {n : Nat} (h : s.checkValue f n = none) :
    n < s.regs.count f := by
  by_contra hn
  simp [State.checkValue_slot (Nat.le_of_not_lt hn)] at h

/-! ### A request performed again -/

/-- An answer given again is the same, if the checks find the same and the effect is idempotent. -/
theorem State.answer_again (ok : State → State) {e e' : Option ErrorKind} {s t : State}
    (h : s.answer e (ok s) = .next t) (he : e' = e) (hok : e = none → ok (ok s) = ok s) :
    t.answer e' (ok t) = .next t := by
  subst he
  rcases State.answer_cases h with ⟨k, rfl, rfl⟩ | ⟨rfl, rfl⟩
  · rfl
  · rw [hok rfl]; rfl

/-- The effect of a read. -/
def State.readEffect (d : RegisterFile → Wide) (s : State) : State := s.respond (d s.regs)

theorem State.answer_readEffect_again {d : RegisterFile → Wide} {e e' : Option ErrorKind} {s t : State}
    (h : s.answer e (s.readEffect d) = .next t) (he : e' = e) : t.answer e' (t.readEffect d) = .next t :=
  State.answer_again (·.readEffect d) h he fun _ => rfl

/-- The effect of a write whose operand is d of the write data. -/
def State.writeEffect {len : Nat} (f : Family) (n lo : Nat) (d : Wide → BitVec len) (s : State) : State :=
  (s.withRegs (s.regs.putSlot f.bank n lo (d s.wdata))).done

theorem State.writeEffect_writeEffect {len : Nat} {f : Family} {n : Nat} {s : State} (lo : Nat)
    (d : Wide → BitVec len) (hn : n < s.regs.count f) :
    (s.writeEffect f n lo d).writeEffect f n lo d = s.writeEffect f n lo d :=
  congrArg (fun r => (s.withRegs r).done) (s.regs.putSlot_putSlot f.bank n lo (d s.wdata) hn)

theorem State.answer_writeEffect_again {len : Nat} {f : Family} {n lo : Nat} {d : Wide → BitVec len}
    {e e' : Option ErrorKind} {s t : State} (h : s.answer e (s.writeEffect f n lo d) = .next t) (he : e' = e)
    (hn : e = none → n < s.regs.count f) : t.answer e' (t.writeEffect f n lo d) = .next t :=
  State.answer_again (·.writeEffect f n lo d) h he fun hok => State.writeEffect_writeEffect lo d (hn hok)

/-! Each operation but RESET is a check and one of the two effects. -/

theorem exec_getBit_eq (f : Family) (n i : Nat) (s : State) :
    exec (.getBit f n i) s =
      s.answer (s.checkIndexed f n i f.aw) (s.readEffect fun r => readData (r.viewBit f n i)) := rfl

theorem exec_setBit_eq (f : Family) (n i : Nat) (s : State) :
    exec (.setBit f n i) s = s.answer (s.checkIndexed f n i f.aw) (s.writeEffect f n i bitOperand) := rfl

theorem exec_getByte_eq (f : Family) (n j : Nat) (s : State) :
    exec (.getByte f n j) s =
      s.answer (s.checkIndexed f n j (f.aw / 8)) (s.readEffect fun r => readData (r.viewByte f n j)) := rfl

theorem exec_setByte_eq (f : Family) (n j : Nat) (s : State) :
    exec (.setByte f n j) s =
      s.answer (s.checkIndexed f n j (f.aw / 8)) (s.writeEffect f n (byteLo j) byteOperand) := rfl

theorem exec_getValue_eq (f : Family) (n : Nat) (s : State) :
    exec (.getValue f n) s = s.answer (s.checkValue f n) (s.readEffect fun r => readData (r.aliasRead f n)) := rfl

theorem exec_setValue_eq (f : Family) (n : Nat) (s : State) :
    exec (.setValue f n) s = s.answer (s.checkValue f n) (s.writeEffect f n 0 (valueOperand f)) := rfl

theorem exec_reset_eq (s : State) : exec .reset s = .next s.zeroRegs.done := rfl

theorem State.zeroRegs_done_again (s : State) : s.zeroRegs.done.zeroRegs.done = s.zeroRegs.done :=
  congrArg (fun r => (s.withRegs r).done) s.regs.zeroed_zeroed

/-! ### The obligations of 20_memory.md -/

/-- Settles O28: a step that changes a slot is a reset or a write that names this slot, and an error changes none. -/
theorem stepTouchesAtMostOneSlot : Obligations.StepTouchesAtMostOneSlot := by
  intro s t h
  refine ⟨fun i f => step_sameBut_of_writes h, fun i hp hi hread => ?read, step_regs_of_error h,
    fun hr hnone => ?nothing⟩
  case read =>
    exact step_regs_of_no_write h hp.rst_ne (fun hreset => hi (hp.unique hreset))
      fun j f hj => hp.unique hj ▸ hread f
  case nothing =>
    exact step_regs_of_no_write h (by simp [hr]) (hnone _) fun j _ hj => absurd hj (hnone j)

/-- Settles O31: the checks find the same, since no request changes a size, and every effect is idempotent. -/
theorem everyRequestIsIdempotent : Obligations.EveryRequestIsIdempotent := by
  intro i s t h
  have hsize := exec_sameSize h
  cases i with
  | getBit f n i =>
    rw [exec_getBit_eq] at h ⊢
    exact State.answer_readEffect_again h (State.checkIndexed_of_sameSize hsize ..)
  | setBit f n i =>
    rw [exec_setBit_eq] at h ⊢
    exact State.answer_writeEffect_again h (State.checkIndexed_of_sameSize hsize ..) State.slot_lt_of_checkIndexed
  | getByte f n j =>
    rw [exec_getByte_eq] at h ⊢
    exact State.answer_readEffect_again h (State.checkIndexed_of_sameSize hsize ..)
  | setByte f n j =>
    rw [exec_setByte_eq] at h ⊢
    exact State.answer_writeEffect_again h (State.checkIndexed_of_sameSize hsize ..) State.slot_lt_of_checkIndexed
  | getValue f n =>
    rw [exec_getValue_eq] at h ⊢
    exact State.answer_readEffect_again h (State.checkValue_of_sameSize hsize ..)
  | setValue f n =>
    rw [exec_setValue_eq] at h ⊢
    exact State.answer_writeEffect_again h (State.checkValue_of_sameSize hsize ..) State.slot_lt_of_checkValue
  | reset =>
    obtain rfl := Host.Outcome.next.inj h
    rw [exec_reset_eq, s.zeroRegs_done_again]

end Sys2Proof.Machine
end

section
/-! PROOFS. The command word: its fields, and the decoder and the encoder as inverses (30_encoding.md R81 to R92). -/

namespace Sys2Proof.Laws

/-! ### The number of a word and its fields -/

theorem toNat_cmdWord {op fam slot idx : Nat} (ho : op < 16) (hf : fam < 16) (hs : slot < 256) (hi : idx < 1024) :
    (cmdWord op fam slot idx).toNat = op + 16 * fam + 256 * slot + 65536 * idx := by
  simp only [cmdWord, toNat_append_eq, BitVec.toNat_ofNat]
  omega

/-- A word is the sum of its fields, each at its place (30_encoding.md R81). -/
theorem toNat_eq_fields (w : CmdWord) :
    w.toNat = opField w + 16 * famField w + 256 * slotField w + 65536 * idxField w + 67108864 * rsvdField w := by
  simp only [opField, famField, slotField, idxField, rsvdField, BitVec.extractLsb'_toNat, Nat.shiftRight_eq_div_pow]
  omega

theorem opField_lt (w : CmdWord) : opField w < 16 := BitVec.isLt _

theorem famField_lt (w : CmdWord) : famField w < 16 := BitVec.isLt _

theorem slotField_lt (w : CmdWord) : slotField w < 256 := BitVec.isLt _

theorem idxField_lt (w : CmdWord) : idxField w < 1024 := BitVec.isLt _

/-- A word with RSVD = 0 is the word laid out from its own fields. -/
theorem cmdWord_of_fields {w : CmdWord} (h : rsvdField w = 0) :
    cmdWord (opField w) (famField w) (slotField w) (idxField w) = w := by
  apply BitVec.eq_of_toNat_eq
  rw [toNat_cmdWord (opField_lt w) (famField_lt w) (slotField_lt w) (idxField_lt w), toNat_eq_fields w, h, Nat.mul_zero,
    Nat.add_zero]

/-- Bits 25:4 are zero when each of the three fields in them is. -/
theorem resetField_eq_zero_iff (w : CmdWord) :
    resetField w = 0 ↔ famField w = 0 ∧ slotField w = 0 ∧ idxField w = 0 := by
  have hsum : resetField w = famField w + 16 * slotField w + 4096 * idxField w := by
    simp only [resetField, famField, slotField, idxField, BitVec.extractLsb'_toNat, Nat.shiftRight_eq_div_pow]
    omega
  omega

/-! ### Codes -/

/-- The FAM table read in both directions (30_encoding.md R84). -/
theorem familyOf_eq_some_iff {c : Nat} {f : Family} : familyOf c = some f ↔ f.code = c := by
  constructor
  · intro h
    unfold familyOf at h
    split at h <;> cases h <;> rfl
  · rintro rfl
    cases f <;> rfl

/-- The reserved FAM values (30_encoding.md R84). -/
theorem familyOf_eq_none_iff {c : Nat} : familyOf c = none ↔ 9 ≤ c := by
  constructor
  · intro h
    by_contra hlt
    interval_cases c <;> cases h
  · intro h
    rw [Option.eq_none_iff_forall_ne_some]
    intro f hf
    have := family_code_lt f
    have := familyOf_eq_some_iff.mp hf
    omega

theorem family_code_inj {f g : Family} : f.code = g.code ↔ f = g := by
  rw [← familyOf_eq_some_iff, familyOf_eq_some_iff.mpr rfl, Option.some.injEq, eq_comm]

theorem op_le (i : Instr) : i.op ≤ 6 := by cases i <;> simp [Instr.op]

theorem fam_lt (i : Instr) : i.fam < 9 := by
  cases i with
  | reset => exact Nat.succ_pos 8
  | _ f => exact family_code_lt f

theorem eq_reset_of_op {i : Instr} (h : i.op = 6) : i = .reset := by
  cases i with
  | reset => rfl
  | _ => simp [Instr.op] at h

/-- A request can be encoded if its SLOT and IDX fit their fields, those that are SBZ included. -/
theorem wf_iff_fields (i : Instr) : i.wf = true ↔ i.slot < 256 ∧ i.idx < 1024 := by
  cases i <;> simp [Instr.wf, Instr.slot, Instr.idx, slotFits, idxFits, Nat.lt_succ_iff]

theorem encode_fields (i : Instr) : EncodeFields.Statement i :=
  match i with
  | .getBit f n k => EncodeFields.getBit f n k
  | .setBit f n k => EncodeFields.setBit f n k
  | .getByte f n k => EncodeFields.getByte f n k
  | .setByte f n k => EncodeFields.setByte f n k
  | .getValue f n => EncodeFields.getValue f n
  | .setValue f n => EncodeFields.setValue f n
  | .reset => EncodeFields.reset

/-! ### What the decoder answers -/

/-- An access is read from its four fields (30_encoding.md R91). -/
theorem decodeAccess_eq_request_iff {op n k : Nat} {f : Family} {i : Instr} (hop : op < 6) :
    decodeAccess op f n k = .request i ↔ op = i.op ∧ f.code = i.fam ∧ n = i.slot ∧ k = i.idx := by
  constructor
  · intro h
    unfold decodeAccess at h
    split at h
    case h_5 | h_6 =>
      obtain ⟨rfl, h⟩ := (ite_eq_iff.mp h).resolve_right (by simp)
      cases h
      exact ⟨rfl, rfl, rfl, rfl⟩
    case h_7 => cases h
    all_goals
      cases h
      exact ⟨rfl, rfl, rfl, rfl⟩
  · rintro ⟨rfl, hf, rfl, rfl⟩
    cases i with
    | reset => simp [Instr.op] at hop
    | _ g =>
      obtain rfl := family_code_inj.mp hf
      rfl

/-- Only the two value accesses have a field that is SBZ (30_encoding.md R87). -/
theorem decodeAccess_illegal_iff {op n k : Nat} {f : Family} (hop : op < 6) :
    (∃ why, decodeAccess op f n k = .illegal why) ↔ (op = 4 ∨ op = 5) ∧ k ≠ 0 := by
  by_cases hk : k = 0 <;> interval_cases op <;> simp [decodeAccess, hk]

/-- What a command word can decode to, in the order of the tests of 30_encoding.md R91. -/
theorem decode_cases (w : CmdWord) :
    (rsvdField w ≠ 0 ∧ decode w = .illegal .reservedBits) ∨
    (rsvdField w = 0 ∧ 7 ≤ opField w ∧ decode w = .illegal .reservedOp) ∨
    (rsvdField w = 0 ∧ opField w = 6 ∧ resetField w ≠ 0 ∧ decode w = .illegal .nonzeroResetField) ∨
    (rsvdField w = 0 ∧ opField w = 6 ∧ resetField w = 0 ∧ decode w = .request .reset) ∨
    (rsvdField w = 0 ∧ opField w < 6 ∧ 9 ≤ famField w ∧ decode w = .illegal .reservedFamily) ∨
    (rsvdField w = 0 ∧ opField w < 6 ∧
      ∃ f : Family, f.code = famField w ∧ decode w = decodeAccess (opField w) f (slotField w) (idxField w)) := by
  unfold decode
  by_cases hr : rsvdField w = 0
  case neg => simp [hr]
  rcases lt_trichotomy (opField w) 6 with ho | ho | ho
  · have ho' : ¬ 7 ≤ opField w := by omega
    cases hf : familyOf (famField w) with
    | none => simp [hr, ho, ho', ho.ne, familyOf_eq_none_iff.mp hf]
    | some f =>
      have haccess : ∃ g : Family, g.code = famField w ∧ decodeAccess (opField w) f (slotField w) (idxField w) =
          decodeAccess (opField w) g (slotField w) (idxField w) := ⟨f, familyOf_eq_some_iff.mp hf, rfl⟩
      simp [hr, ho, ho', ho.ne, haccess]
  · by_cases hz : resetField w = 0 <;> simp [hr, ho, hz]
  · simp [hr, Nat.succ_le_of_lt ho]

/-- A word decodes to a request exactly if RSVD is 0 and the other four fields are the request's. -/
theorem decode_eq_request_iff {w : CmdWord} {i : Instr} :
    decode w = .request i ↔
      opField w = i.op ∧ famField w = i.fam ∧ slotField w = i.slot ∧ idxField w = i.idx ∧ rsvdField w = 0 := by
  have hop := op_le i
  have hfam := fam_lt i
  rcases decode_cases w with ⟨hr, hd⟩ | ⟨hr, ho, hd⟩ | ⟨hr, ho, hz, hd⟩ | ⟨hr, ho, hz, hd⟩ | ⟨hr, ho, hf, hd⟩ |
      ⟨hr, ho, f, hf, hd⟩ <;>
    rw [hd]
  case inr.inr.inl =>
    refine iff_of_false (by simp) ?_
    rintro ⟨hi, hf, hs, hk, -⟩
    obtain rfl := eq_reset_of_op (hi.symm.trans ho)
    exact hz ((resetField_eq_zero_iff w).mpr ⟨hf, hs, hk⟩)
  case inr.inr.inr.inl =>
    constructor
    · rintro ⟨⟩
      obtain ⟨hf, hs, hk⟩ := (resetField_eq_zero_iff w).mp hz
      exact ⟨ho, hf, hs, hk, hr⟩
    · rintro ⟨hi, -⟩
      rw [eq_reset_of_op (hi.symm.trans ho)]
  case inr.inr.inr.inr.inr => simp [decodeAccess_eq_request_iff ho, hf, hr]
  all_goals exact iff_of_false (by simp) (by omega)

/-! ### The obligations on the command word -/

/-- Settles O9: the fields of the encoding are those of the request, which is what the decoder reads. -/
theorem decodeOfEncodeIsTheRequest : Obligations.DecodeOfEncodeIsTheRequest :=
  fun i hw => decode_eq_request_iff.mpr (encode_fields i hw)

/-- Settles O10: a request read from a word is laid out from that word's own fields. -/
theorem encodeOfDecodeIsTheWord : Obligations.EncodeOfDecodeIsTheWord := by
  intro w i h
  obtain ⟨ho, hf, hs, hk, hr⟩ := decode_eq_request_iff.mp h
  refine ⟨(wf_iff_fields i).mpr ⟨hs ▸ slotField_lt w, hk ▸ idxField_lt w⟩, ?_⟩
  calc encode i = cmdWord (opField w) (famField w) (slotField w) (idxField w) := by rw [encode, ho, hf, hs, hk]
    _ = w := cmdWord_of_fields hr

/-- Settles O11, by the cases of the decoder: in each of them the listed conditions hold exactly if it answers no
request. -/
theorem illegalWordsAreTheReservedOnes : Obligations.IllegalWordsAreTheReservedOnes := by
  intro w
  have hreset := resetField_eq_zero_iff w
  rcases decode_cases w with ⟨hr, hd⟩ | ⟨hr, ho, hd⟩ | ⟨hr, ho, hz, hd⟩ | ⟨hr, ho, hz, hd⟩ | ⟨hr, ho, hf, hd⟩ |
      ⟨hr, ho, f, hf, hd⟩ <;>
    rw [hd]
  case inr.inr.inr.inl => exact iff_of_false (by simp) (by omega)
  case inr.inr.inr.inr.inr =>
    have := family_code_lt f
    rw [decodeAccess_illegal_iff ho]
    omega
  all_goals exact iff_of_true ⟨_, rfl⟩ (by omega)

/-- Settles O12, by evaluating the decoder on the twelve words. -/
theorem specWordsDecodeAsListed : Obligations.SpecWordsDecodeAsListed := by
  unfold Obligations.SpecWordsDecodeAsListed
  decide

end Sys2Proof.Laws
end

section
/-! PROOFS. Write data that an operation does not use, and the requests of the pseudo-instructions (30_encoding.md R87,
R88, R97). -/

namespace Sys2Proof.Machine

/-! ### Other write data -/

theorem takeField_congr {w : Nat} {x y : BitVec w} {len : Nat} (h : ∀ k, k < len → x.getLsbD k = y.getLsbD k) :
    takeField x 0 len = takeField y 0 len := by
  ext k hk
  simp [← BitVec.getLsbD_eq_getElem, getLsbD_takeField, hk, h k hk]

/-- An answer with the same checks and the same effect, whatever the write data beside it. -/
theorem State.answer_withWdata (s ok : State) (e : Option ErrorKind) (x : Wide) :
    ∃ t, s.answer e ok = .next t ∧ (s.withWdata x).answer e (ok.withWdata x) = .next (t.withWdata x) := by
  cases e with
  | none => exact ⟨ok, rfl, rfl⟩
  | some k => exact ⟨s.raise k, rfl, rfl⟩

/-- A write whose operand is the same in the other write data. -/
theorem State.answer_writeEffect_withWdata {len : Nat} {d : Wide → BitVec len} {s : State} {x : Wide}
    (e : Option ErrorKind) (f : Family) (n lo : Nat) (h : d x = d s.wdata) :
    ∃ t, s.answer e (s.writeEffect f n lo d) = .next t ∧
      (s.withWdata x).answer e ((s.withWdata x).writeEffect f n lo d) = .next (t.withWdata x) := by
  have hwrite : (s.withWdata x).writeEffect f n lo d = (s.writeEffect f n lo d).withWdata x :=
    congrArg (fun y => ((s.withRegs (s.regs.putSlot f.bank n lo y)).done).withWdata x) h
  rw [hwrite]
  exact s.answer_withWdata _ e x

/-- A request performed with write data that agrees in the bits it uses differs in the presented data alone. -/
theorem exec_withWdata {i : Instr} {s : State} {x : Wide}
    (h : ∀ k, k < dataBits i → x.getLsbD k = s.wdata.getLsbD k) :
    ∃ t, exec i s = .next t ∧ exec i (s.withWdata x) = .next (t.withWdata x) := by
  cases i with
  | getBit f n i => exact s.answer_withWdata _ _ x
  | setBit f n i => exact State.answer_writeEffect_withWdata (d := bitOperand) _ f n i (takeField_congr h)
  | getByte f n j => exact s.answer_withWdata _ _ x
  | setByte f n j => exact State.answer_writeEffect_withWdata (d := byteOperand) _ f n (byteLo j) (takeField_congr h)
  | getValue f n => exact s.answer_withWdata _ _ x
  | setValue f n => exact State.answer_writeEffect_withWdata (d := valueOperand f) _ f n 0 (takeField_congr h)
  | reset => exact ⟨_, rfl, rfl⟩

/-! ### A caller's sequence of requests -/

/-- A run of k + 1 steps is a step and a run of k. -/
theorem run_succ_of_next (M : Host.Core) (k : Nat) {s t : M.State} (h : M.step s = .next t) :
    M.run (k + 1) s = M.run k t := by
  simp [Host.Core.run, h]

theorem exec_later {i : Instr} {s t : State} (h : exec i s = .next t) : t.later = s.later := by
  rcases exec_cases h with ⟨k, -, rfl⟩ | ⟨d, rfl⟩ | ⟨f, x, -, -, rfl⟩ | ⟨-, rfl⟩ <;> rfl

/-- The first of a list of requests runs, and the others stand before the block (00_scope.md R8). -/
theorem run_present_cons {q : Request} {ps : List PortIn} {s t : State} (k : Nat) (hw : q.instr.wf = true)
    (h : exec q.instr (s.present (q.portIn :: ps)) = .next t) :
    Host.Core.run core (k + 1) (s.present (q.portIn :: ps)) = Host.Core.run core k (t.present ps) := by
  have hp : (s.present (q.portIn :: ps)).Performs q.instr :=
    ⟨rfl, rfl, Laws.decodeOfEncodeIsTheRequest q.instr hw⟩
  have hnext : t.nextInput = t.present ps := by
    rw [State.nextInput, exec_later h]
    rfl
  calc Host.Core.run core (k + 1) (s.present (q.portIn :: ps))
      = Host.Core.run core k t.nextInput :=
        run_succ_of_next core k ((step_of_performs hp).trans (congrArg advancePort h))
    _ = Host.Core.run core k (t.present ps) := by rw [hnext]

/-- A SET_VALUE of a valid slot answers OK and writes the view. -/
theorem run_setValueRequest {v : View} {s : State} (imm k : Nat) (ps : List PortIn) (hs : v.slot ≤ 255)
    (hn : v.slot < s.regs.count v.fam) :
    ∃ t : State, t.regs = s.regs.aliasWrite v.fam v.slot (valueOperand v.fam (BitVec.ofNat 512 imm)) ∧
      t.output = ⟨true, 0, 0⟩ ∧
      Host.Core.run core (k + 1) (s.present ((setValueRequest v imm).portIn :: ps)) =
        Host.Core.run core k (t.present ps) := by
  have hw : (setValueRequest v imm).instr.wf = true := decide_eq_true hs
  exact ⟨_, rfl, rfl, run_present_cons k hw (exec_setValue_ok hn)⟩

/-- Every bit of every view can be encoded (30_encoding.md R86). -/
theorem slotFits_and_idxFits {f : Family} {n i : Nat} (hs : n ≤ 255) (hi : i < f.aw) :
    (slotFits n && idxFits i) = true := by
  have := f.aw_le_wide
  simp only [slotFits, idxFits, Bool.and_eq_true, decide_eq_true_eq]
  omega

/-- A SET_BIT of a valid bit writes the bit. -/
theorem run_setBit {f : Family} {n i : Nat} {s : State} (x : Wide) (k : Nat) (ps : List PortIn) (hs : n ≤ 255)
    (hn : n < s.regs.count f) (hi : i < f.aw) :
    ∃ t : State, t.regs = s.regs.setViewBit f n i (bitOperand x) ∧
      Host.Core.run core (k + 1) (s.present (Request.portIn ⟨.setBit f n i, x⟩ :: ps)) =
        Host.Core.run core k (t.present ps) :=
  ⟨_, rfl, run_present_cons (q := ⟨.setBit f n i, x⟩) k (slotFits_and_idxFits hs hi) (exec_setBit_ok hn hi)⟩

/-- A GET_BIT of a valid bit answers the bit. -/
theorem run_getBit {f : Family} {n i : Nat} {s : State} (x : Wide) (k : Nat) (ps : List PortIn) (hs : n ≤ 255)
    (hn : n < s.regs.count f) (hi : i < f.aw) :
    ∃ t : State, t.output = ⟨true, 0, readData (s.regs.viewBit f n i)⟩ ∧
      Host.Core.run core (k + 1) (s.present (Request.portIn ⟨.getBit f n i, x⟩ :: ps)) =
        Host.Core.run core k (t.present ps) :=
  ⟨_, rfl, run_present_cons (q := ⟨.getBit f n i, x⟩) k (slotFits_and_idxFits hs hi) (exec_getBit_ok hn hi)⟩

/-! ### What the writes of the pseudo-instructions leave -/

theorem RegisterFile.SameBut.trans {r r' r'' : RegisterFile} {b : Bank} {n : Nat} (h : r.SameBut r' b n)
    (h' : r'.SameBut r'' b n) : r.SameBut r'' b n := by
  obtain ⟨⟨hg, hv⟩, hread⟩ := h
  obtain ⟨⟨hg', hv'⟩, hread'⟩ := h'
  refine ⟨⟨hg'.trans hg, hv'.trans hv⟩, fun c m hm hne => ?_⟩
  have hm' : m < r'.slots c := by rwa [RegisterFile.SameSize.slots ⟨hg, hv⟩]
  exact (hread' c m hm' hne).trans (hread c m hm hne)

theorem RegisterFile.sameBut_aliasWrite (r : RegisterFile) (f : Family) (n : Nat) (x : BitVec f.aw)
    (hn : n < r.count f) : r.SameBut (r.aliasWrite f n x) f.bank n :=
  r.sameBut_write f.bank n _ hn

theorem RegisterFile.sameBut_setViewBit (r : RegisterFile) (f : Family) (n i : Nat) (b : BitVec 1)
    (hn : n < r.count f) : r.SameBut (r.setViewBit f n i b) f.bank n :=
  r.sameBut_write f.bank n _ hn

theorem toNat_takeField_ofNat {w len : Nat} (n : Nat) (h : len ≤ w) :
    (takeField (BitVec.ofNat w n) 0 len).toNat = n % 2 ^ len := by
  simp [takeField, Nat.mod_mod_of_dvd n (Nat.pow_dvd_pow 2 h)]

theorem toNat_valueOperand_ofNat (f : Family) (imm : Nat) :
    (valueOperand f (BitVec.ofNat 512 imm)).toNat = imm % 2 ^ f.aw :=
  toNat_takeField_ofNat imm f.aw_le_wide

theorem valueOperand_zero (f : Family) : valueOperand f (BitVec.ofNat 512 0) = 0 := by
  apply BitVec.eq_of_toNat_eq
  simp [toNat_valueOperand_ofNat]

/-- Writing 0 through the view of the whole slot clears the slot. -/
theorem RegisterFile.read_aliasWrite_whole_zero (r : RegisterFile) {f : Family} {b : Bank} {n : Nat} (hb : f.bank = b)
    (haw : f.aw = b.width) (hn : n < r.count f) : (r.aliasWrite f n 0).read b n = 0 := by
  subst hb
  apply BitVec.eq_of_getLsbD_eq
  intro k hk
  rw [r.getLsbD_read_aliasWrite f n 0 k hn hk, if_pos (haw ▸ hk)]
  simp

/-- A value written into a slot that holds 0 is the slot's value, zero-extended. -/
theorem RegisterFile.read_aliasWrite_of_zero (r : RegisterFile) {f : Family} {n : Nat} (x : BitVec f.aw)
    (hn : n < r.count f) (h0 : r.read f.bank n = 0) : (r.aliasWrite f n x).read f.bank n = x.setWidth f.bank.width := by
  apply BitVec.eq_of_getLsbD_eq
  intro k hk
  rw [r.getLsbD_read_aliasWrite f n x k hn hk, h0]
  by_cases hka : k < f.aw
  · simp [hka, hk]
  · simp [hka, BitVec.getLsbD_of_ge x k (by omega)]

/-! ### FLAG_POS -/

theorem FlagPos.pos_lt {p : FlagPos} (h : p.wf = true) (name : FlagName) : p.pos name < 64 := by
  have hall : p.carry < 64 ∧ p.zero < 64 ∧ p.sign < 64 ∧ p.overflow < 64 := by
    simp only [FlagPos.wf, Bool.and_eq_true, List.all_eq_true, decide_eq_true_eq] at h
    simpa using h.1
  obtain ⟨hcarry, hzero, hsign, hoverflow⟩ := hall
  cases name with
  | carry => exact hcarry
  | zero => exact hzero
  | sign => exact hsign
  | overflow => exact hoverflow

theorem getLsbD_bitOperand_ofNat {b : Nat} (hb : b ≤ 1) :
    (bitOperand (BitVec.ofNat 512 b)).getLsbD 0 = decide (b = 1) := by
  rw [getLsbD_bitOperand]
  interval_cases b <;> simp

/-- FLAGS after SET_BIT of it with the bit b as write data. -/
theorem RegisterFile.getLsbD_flags_setViewBit (r : RegisterFile) {i b k : Nat} (hb : b ≤ 1) (hk : k < 64) :
    (r.setViewBit .flags 0 i (bitOperand (BitVec.ofNat 512 b))).flags.getLsbD k =
      if k = i then decide (b = 1) else r.flags.getLsbD k := by
  rw [← getLsbD_bitOperand_ofNat hb]
  exact r.getLsbD_read_setViewBit .flags 0 i _ k Nat.one_pos hk

/-! ### The obligations on write data and pseudo-instructions -/

/-- Settles O29: the two states that follow differ in the presented write data alone. -/
theorem unusedWriteDataHasNoEffect : Obligations.UnusedWriteDataHasNoEffect := by
  intro i s x h
  obtain ⟨t, ht, hu⟩ := exec_withWdata h
  exact ⟨t, t.withWdata x, ht, hu, rfl, rfl⟩

/-- Settles O39: the first request clears the slot, so the second leaves its immediate alone there. -/
theorem zsetValueClearsTheUpperBits : Obligations.ZsetValueClearsTheUpperBits := by
  intro p v imm s hn hs _
  have hbank : v.full.fam.bank = v.fam.bank := v.fam.full_bank
  have hnfull : v.full.slot < s.regs.count v.full.fam := by rwa [s.regs.count_eq_of_bank_eq hbank]
  obtain ⟨t, ht, -, hrun⟩ :=
    run_setValueRequest (v := v.full) (s := s) 0 1 [(setValueRequest v imm).portIn] hs hnfull
  have hclear : s.regs.SameBut t.regs v.fam.bank v.slot := by
    rw [ht, ← hbank]
    exact s.regs.sameBut_aliasWrite v.full.fam v.slot _ hnfull
  have hzero : t.regs.read v.fam.bank v.slot = 0 := by
    rw [ht, valueOperand_zero]
    exact s.regs.read_aliasWrite_whole_zero hbank v.fam.full_aw hnfull
  have hnt : v.slot < t.regs.count v.fam := by simpa [ht] using hn
  obtain ⟨u, hu, hout, hrun'⟩ := run_setValueRequest imm 0 [] hs hnt
  refine ⟨u.present [], hrun.trans hrun', hout, ?_, ?_⟩
  · rw [State.present_regs, hu]
    exact hclear.trans (t.regs.sameBut_aliasWrite v.fam v.slot _ hnt)
  · have hlt : imm % 2 ^ v.fam.aw < 2 ^ v.fam.bank.width :=
      (Nat.mod_lt _ (Nat.two_pow_pos _)).trans_le (Nat.pow_le_pow_right Nat.two_pos v.fam.aw_le_width)
    rw [State.present_regs, hu, t.regs.read_aliasWrite_of_zero _ hnt hzero, BitVec.toNat_setWidth,
      toNat_valueOperand_ofNat, Nat.mod_eq_of_lt hlt]

/-- Settles O40: set_flag is a SET_BIT of FLAGS, and the GET_BIT after it reads the bit back. -/
theorem setFlagWritesTheNamedBit : Obligations.SetFlagWritesTheNamedBit := by
  intro p name b s hp hb
  have hpos : p.pos name < Family.flags.aw := p.pos_lt hp name
  have hset (k : Nat) (ps : List PortIn) :=
    run_setBit (f := .flags) (s := s) (BitVec.ofNat 512 b) k ps (Nat.zero_le _) Nat.one_pos hpos
  refine ⟨?set, ?get⟩
  case set =>
    obtain ⟨t, ht, hrun⟩ := hset 0 []
    refine ⟨t.present [], hrun, ?_, fun k hk => ?_⟩
    · rw [State.present_regs, ht]
      exact s.regs.sameBut_setViewBit .flags 0 _ _ Nat.one_pos
    · rw [State.present_regs, ht, s.regs.getLsbD_flags_setViewBit hb hk]
  case get =>
    obtain ⟨t, ht, hrun⟩ := hset 1 [Request.portIn ⟨.getBit .flags 0 (p.pos name), 0⟩]
    obtain ⟨u, hu, hrun'⟩ := run_getBit (f := .flags) (s := t) 0 0 [] (Nat.zero_le _) Nat.one_pos hpos
    have hbit : (t.regs.viewBit .flags 0 (p.pos name)).getLsbD 0 = decide (b = 1) := by
      rw [RegisterFile.getLsbD_viewBit, ht]
      exact (s.regs.getLsbD_flags_setViewBit hb hpos).trans (if_pos rfl)
    refine ⟨u.present [], hrun.trans hrun', hu.trans ?_⟩
    rw [readData_bit, hbit]
    interval_cases b <;> rfl

end Sys2Proof.Machine
end

section
/-! PROOFS. The wide-integer value functions: bytes, bit and byte access, arithmetic, extensions (40_wideint.md R113 to
R129). -/

namespace Sys2Proof.Machine

/-! ### The widths are whole numbers of bytes, and wider than a native word -/

theorem WideWidth.eight_mul_bytes (W : WideWidth) : 8 * (W.bits / 8) = W.bits := by cases W <;> rfl

theorem WideWidth.native_le_bits (W : WideWidth) : 64 ≤ W.bits := by cases W <;> decide

/-! ### Values and their bytes -/

/-- Byte j of packed bytes is entry j of the sequence, 0 past its end. -/
theorem takeByte_ofBytes {w j : Nat} (bs : List Byte) (hj : j < w / 8) : takeByte (ofBytes w bs) j = bs.getD j 0 := by
  apply BitVec.eq_of_getLsbD_eq
  intro k hk
  have hdiv : (8 * j + k) / 8 = j := by omega
  have hmod : (8 * j + k) % 8 = k := by omega
  rw [getLsbD_takeByte, getLsbD_ofBytes w bs _ (by omega), hdiv, hmod]
  simp [hk]

theorem bytesOf_getElem? {w j : Nat} (v : BitVec w) (hj : j < w / 8) : (bytesOf v)[j]? = some (takeByte v j) := by
  rw [List.getElem?_eq_getElem (by simpa using hj), bytesOf_getElem]

theorem bytesOf_getD {w j : Nat} (v : BitVec w) (hj : j < w / 8) : (bytesOf v).getD j 0 = takeByte v j := by
  rw [List.getD_eq_getElem?_getD, bytesOf_getElem? v hj, Option.getD_some]

/-- Unpacking undoes packing for a sequence of exactly the value's bytes. -/
theorem bytesOf_ofBytes {w : Nat} {bs : List Byte} (h : bs.length = w / 8) : bytesOf (ofBytes w bs) = bs := by
  apply List.ext_getElem
  · rw [bytesOf_length, h]
  · intro j _ hj
    rw [bytesOf_getElem, takeByte_ofBytes bs (h ▸ hj), List.getD_eq_getElem bs 0 hj]

/-- Packing undoes unpacking where no bit lies past the last whole byte. -/
theorem ofBytes_bytesOf {w : Nat} (hw : 8 * (w / 8) = w) (v : BitVec w) : ofBytes w (bytesOf v) = v := by
  apply BitVec.eq_of_getLsbD_eq
  intro k hk
  have hmod : k % 8 < 8 := Nat.mod_lt k (by decide)
  rw [getLsbD_ofBytes w _ k hk, bytesOf_getD v (by omega), getLsbD_takeByte, Nat.div_add_mod]
  simp [hmod]

/-- The bits of one byte are those whose index has that quotient by 8. -/
theorem getLsbD_putByte_other {w j k : Nat} (v : BitVec w) (d : Byte) (hk : k < w) (hne : k / 8 ≠ j) :
    (putByte v j d).getLsbD k = v.getLsbD k := by
  rw [getLsbD_putByte v j d k hk, if_neg (by omega)]

theorem getLsbD_putField_bit_other {w i k : Nat} (v : BitVec w) (b : BitVec 1) (hk : k < w) (hne : k ≠ i) :
    (putField v i b).getLsbD k = v.getLsbD k := by
  rw [getLsbD_putField v i b k hk, if_neg (by omega)]

/-! ### What each function with a range answers on either side of it -/

section
variable {W : WideWidth} (v : WideInteger W) {i : Nat}

theorem wideFromBytes_too_long {bs : List Byte} (h : W.bits / 8 < bs.length) :
    wideFromBytes W bs = .raised .sizeMismatch := if_pos h

theorem wideFromBytes_ok {bs : List Byte} (h : bs.length ≤ W.bits / 8) :
    wideFromBytes W bs = .value (ofBytes W.bits bs) := if_neg (Nat.not_lt.mpr h)

theorem wideGetBit_past (h : W.bits ≤ i) : wideGetBit v i = .raised .indexOutOfRange := if_pos h

theorem wideGetBit_ok (h : i < W.bits) : wideGetBit v i = .value (takeField v i 1) := if_neg (Nat.not_le.mpr h)

theorem wideSetBit_past (b : BitVec 1) (h : W.bits ≤ i) : wideSetBit v i b = .raised .indexOutOfRange := if_pos h

theorem wideSetBit_ok (b : BitVec 1) (h : i < W.bits) : wideSetBit v i b = .value (putField v i b) :=
  if_neg (Nat.not_le.mpr h)

theorem wideGetByte_past (h : W.bits / 8 ≤ i) : wideGetByte v i = .raised .indexOutOfRange := if_pos h

theorem wideGetByte_ok (h : i < W.bits / 8) : wideGetByte v i = .value (takeByte v i) := if_neg (Nat.not_le.mpr h)

theorem wideSetByte_past (d : Byte) (h : W.bits / 8 ≤ i) : wideSetByte v i d = .raised .indexOutOfRange := if_pos h

theorem wideSetByte_ok (d : Byte) (h : i < W.bits / 8) : wideSetByte v i d = .value (putByte v i d) :=
  if_neg (Nat.not_le.mpr h)

end

theorem zextN_narrows {m N : Nat} (v : BitVec m) (h : N < m) : zextN N v = .refused .extensionNarrows := if_pos h

theorem zextN_ok {m N : Nat} (v : BitVec m) (h : m ≤ N) : zextN N v = .value (v.setWidth N) :=
  if_neg (Nat.not_lt.mpr h)

theorem sextN_narrows {m N : Nat} (v : BitVec m) (hm : 1 ≤ m) (h : N < m) :
    sextN N v = .refused .extensionNarrows := by
  rw [sextN, if_neg (Nat.one_le_iff_ne_zero.mp hm), if_pos h]

theorem sextN_ok {m N : Nat} (v : BitVec m) (hm : 1 ≤ m) (h : m ≤ N) : sextN N v = .value (v.signExtend N) := by
  rw [sextN, if_neg (Nat.one_le_iff_ne_zero.mp hm), if_neg (Nat.not_lt.mpr h)]

/-! ### The numbers of the shifts, the amount past the width included -/

theorem toNat_wideShl {W : WideWidth} (a : WideInteger W) (n : Nat) :
    (wideShl a n).toNat = (a.toNat * 2 ^ n) % 2 ^ W.bits := by
  unfold wideShl
  split
  case isTrue h =>
    have hdvd : 2 ^ W.bits ∣ a.toNat * 2 ^ n := (Nat.pow_dvd_pow 2 h).mul_left _
    rw [Nat.mod_eq_zero_of_dvd hdvd]
    rfl
  case isFalse => rw [BitVec.toNat_shiftLeft, Nat.shiftLeft_eq]

theorem toNat_wideShr {W : WideWidth} (a : WideInteger W) (n : Nat) : (wideShr a n).toNat = a.toNat / 2 ^ n := by
  unfold wideShr
  split
  case isTrue h =>
    have hlt : a.toNat < 2 ^ n := a.isLt.trans_le (Nat.pow_le_pow_right Nat.two_pos h)
    rw [Nat.div_eq_of_lt hlt]
    rfl
  case isFalse => rw [BitVec.toNat_ushiftRight, Nat.shiftRight_eq_div_pow]

/-! ### The bits of a sign extension -/

/-- The index of the bit copied never passes the top bit of v. -/
theorem getLsbD_signExtend_min {m N k : Nat} (v : BitVec m) (hk : k < N) :
    (v.signExtend N).getLsbD k = v.getLsbD (min k (m - 1)) := by
  rw [BitVec.getLsbD_signExtend, BitVec.msb_eq_getLsbD_last]
  by_cases h : k < m
  · rw [Nat.min_eq_left (by omega)]
    simp [hk, h]
  · rw [Nat.min_eq_right (by omega)]
    simp [hk, h]

/-! ### The obligations of 40_wideint.md -/

/-- Settles O41: the bits are those of the packed bytes. -/
theorem fromBytesPacksOrRaisesSizeMismatch : Obligations.FromBytesPacksOrRaisesSizeMismatch :=
  fun W bs => ⟨wideFromBytes_too_long, fun h => ⟨_, wideFromBytes_ok h, getLsbD_ofBytes W.bits bs⟩⟩

/-- Settles O43: at exact width neither direction loses a byte. -/
theorem bytesRoundTrip : Obligations.BytesRoundTrip := by
  intro W
  constructor
  · intro bs h
    exact ⟨ofBytes W.bits bs, wideFromBytes_ok h.le, bytesOf_ofBytes h⟩
  · intro v
    calc wideFromBytes W (bytesOf v) = .value (ofBytes W.bits (bytesOf v)) := wideFromBytes_ok (bytesOf_length v).le
      _ = .value v := by rw [ofBytes_bytesOf W.eight_mul_bytes v]

/-- Settles O44: get_bit takes a field of one bit, and set_bit puts one. -/
theorem valueBitAccess : Obligations.ValueBitAccess := by
  intro W v i b
  refine ⟨fun h => ⟨wideGetBit_past v h, wideSetBit_past v b h⟩, fun h => ⟨?get, ?set⟩⟩
  case get =>
    refine ⟨_, wideGetBit_ok v h, ?_⟩
    rw [getLsbD_takeField]
    simp
  case set =>
    refine ⟨_, wideSetBit_ok v b h, ?_, fun k => getLsbD_putField_bit_other v b⟩
    rw [wideGetBit_ok _ h, takeField_putField v i b h]

/-- Settles O45: get_byte takes a field of eight bits, and set_byte puts one. -/
theorem valueByteAccess : Obligations.ValueByteAccess := by
  intro W v j d
  refine ⟨fun h => ⟨wideGetByte_past v h, wideSetByte_past v d h⟩, fun h => ⟨?get, ?set⟩⟩
  case get =>
    refine ⟨_, wideGetByte_ok v h, fun k hk => ?_⟩
    rw [getLsbD_takeByte]
    simp [hk]
  case set =>
    have hback : takeByte (putByte v j d) j = d := takeField_putField v (byteLo j) d (by unfold byteLo; omega)
    refine ⟨_, wideSetByte_ok v d h, ?_, ?_, fun k => getLsbD_putByte_other v d⟩
    · rw [wideGetByte_ok _ h, hback]
    · rw [wideToBytes, bytesOf_getElem? _ h, hback]

/-- Settles O46. -/
theorem valueArithmetic : Obligations.ValueArithmetic :=
  fun _ a b n => ⟨BitVec.toNat_add a b, toNat_wideShl a n, toNat_wideShr a n⟩

/-- Settles O42. -/
theorem toBytesGivesEveryByte : Obligations.ToBytesGivesEveryByte := by
  intro W v
  refine ⟨bytesOf_length v, fun i k hi hk => ?_⟩
  rw [wideToBytes, bytesOf_getD v hi, getLsbD_takeByte]
  simp [hk]

/-- Settles O47. -/
theorem valueBitwise : Obligations.ValueBitwise :=
  fun _ _ _ _ _ => ⟨BitVec.getLsbD_and, BitVec.getLsbD_or, BitVec.getLsbD_xor⟩

/-- Settles O48: every native value fits, since W is at least 64. -/
theorem valueConstruction : Obligations.ValueConstruction :=
  fun W _ => ⟨rfl, BitVec.toNat_setWidth_of_le W.native_le_bits⟩

/-- Settles O49. -/
theorem extensionsKeepTheValueOrRefuse : Obligations.ExtensionsKeepTheValueOrRefuse := by
  intro m N v
  refine ⟨zextN_narrows v, fun h => ⟨_, zextN_ok v h, fun k hk => ?zext⟩, sextN_narrows v,
    fun hm h => ⟨_, sextN_ok v hm h, fun k => getLsbD_signExtend_min v⟩⟩
  case zext =>
    by_cases hkm : k < m
    · simp [hk, hkm]
    · simp [hkm, BitVec.getLsbD_of_ge v k (by omega)]

end Sys2Proof.Machine
end

section
/-! PROOFS. GET_BIT and SET_BIT: encoding, errors, and the bit they read and write (41_bit_access.md R140, R141). -/

namespace Sys2Proof.Laws

/-- The word of a well-formed request, given as the sum of its shifted fields, is its encoding (30_encoding.md R81). -/
theorem ofNat_fields_eq_encode {i : Instr} (hw : i.wf = true) :
    BitVec.ofNat 32 (i.op + 16 * i.fam + 256 * i.slot + 65536 * i.idx) = encode i := by
  obtain ⟨hslot, hidx⟩ := (wf_iff_fields i).mp hw
  have hop : i.op < 16 := (op_le i).trans_lt (by decide)
  have hfam : i.fam < 16 := (fam_lt i).trans (by decide)
  rw [encode, ← toNat_cmdWord hop hfam hslot hidx, BitVec.ofNat_toNat, BitVec.setWidth_eq]

/-- A request whose SLOT and IDX fit is read back from the sum of its shifted fields. -/
theorem decode_ofNat_fields (i : Instr) (hslot : i.slot ≤ 255) (hidx : i.idx ≤ 1023) :
    decode (BitVec.ofNat 32 (i.op + 16 * i.fam + 256 * i.slot + 65536 * i.idx)) = .request i := by
  have hw : i.wf = true := (wf_iff_fields i).mpr ⟨Nat.lt_succ_of_le hslot, Nat.lt_succ_of_le hidx⟩
  rw [ofNat_fields_eq_encode hw]
  exact decodeOfEncodeIsTheRequest i hw

end Sys2Proof.Laws

namespace Sys2Proof.Machine

/-! ### The two errors of an indexed access, whatever its effect would be -/

theorem State.answer_checkIndexed_slot {s : State} {f : Family} {n : Nat} (i limit : Nat) (ok : State)
    (hn : s.regs.count f ≤ n) :
    s.answer (s.checkIndexed f n i limit) ok = .next { s with output := ⟨true, 2, 0⟩ } := by
  rw [State.checkIndexed_slot i limit hn]; rfl

theorem State.answer_checkIndexed_index {s : State} {f : Family} {n i limit : Nat} (ok : State)
    (hn : n < s.regs.count f) (hi : limit ≤ i) :
    s.answer (s.checkIndexed f n i limit) ok = .next { s with output := ⟨true, 1, 0⟩ } := by
  rw [State.checkIndexed_index hn hi]; rfl

/-! ### The data of GET_BIT -/

theorem RegisterFile.readData_viewBit (r : RegisterFile) (f : Family) (n i : Nat) :
    readData (r.viewBit f n i) = if (r.read f.bank n).getLsbD i then 1 else 0 := by
  rw [readData_bit, RegisterFile.getLsbD_viewBit]

/-! ### The obligations of 41_bit_access.md -/

/-- Settles O1, clause by clause: the encoding, the two errors, the bit. -/
theorem getBitFollowsItsRule : Obligations.GetBitFollowsItsRule := by
  intro f n i s
  refine ⟨fun hn hi => ?encoding, fun hn => ?slot, fun hn hi => ?index, fun hn hi => ?ok⟩
  case encoding => exact Laws.decode_ofNat_fields (.getBit f n i) hn hi
  case slot => rw [exec_getBit_eq, State.answer_checkIndexed_slot i f.aw _ hn]
  case index => rw [exec_getBit_eq, State.answer_checkIndexed_index _ hn hi]
  case ok =>
    rw [exec_getBit_ok hn hi, RegisterFile.readData_viewBit]
    rfl

/-- Settles O2: the slot changes in the one bit that `getLsbD_read_setViewBit` names, and the write is framed. -/
theorem setBitFollowsItsRule : Obligations.SetBitFollowsItsRule := by
  intro f n i s
  refine ⟨fun hn hi => ?encoding, fun hn => ?slot, fun hn hi => ?index, fun hn hi =>
    ⟨_, exec_setBit_ok hn hi, rfl, ⟨rfl, rfl, rfl⟩, ?frame, fun k hk => ?bits⟩⟩
  case encoding => exact Laws.decode_ofNat_fields (.setBit f n i) hn hi
  case slot => rw [exec_setBit_eq, State.answer_checkIndexed_slot i f.aw _ hn]
  case index => rw [exec_setBit_eq, State.answer_checkIndexed_index _ hn hi]
  case frame => exact s.regs.sameBut_setViewBit f n i _ hn
  case bits =>
    rw [State.done_regs, State.withRegs_regs, s.regs.getLsbD_read_setViewBit f n i _ k hn hk, getLsbD_bitOperand]
    rfl

end Sys2Proof.Machine
end

section
/-! PROOFS. GET_BYTE and SET_BYTE: encoding, errors, and the byte they read and write (42_byte_access.md R150, R151). -/

namespace Sys2Proof.Machine

theorem exec_setByte_ok {f : Family} {n j : Nat} {s : State} (hn : n < s.regs.count f) (hj : j < f.aw / 8) :
    exec (.setByte f n j) s = .next (s.withRegs (s.regs.setViewByte f n j (byteOperand s.wdata))).done := by
  rw [exec_setByte_eq, State.checkIndexed_ok hn hj]; rfl

/-! ### The data of GET_BYTE and SET_BYTE -/

/-- The byte that GET_BYTE answers, and the zeros above it (30_encoding.md R90). -/
theorem RegisterFile.getLsbD_readData_viewByte (r : RegisterFile) (f : Family) (n j k : Nat) :
    (readData (r.viewByte f n j)).getLsbD k = (decide (k < 8) && (r.read f.bank n).getLsbD (8 * j + k)) := by
  rw [getLsbD_readData _ (by decide), RegisterFile.viewByte, getLsbD_takeByte]

theorem getLsbD_byteOperand (w : Wide) (k : Nat) (hk : k < 8) : (byteOperand w).getLsbD k = w.getLsbD k := by
  rw [byteOperand, getLsbD_takeField]; simp [hk]

/-! ### What SET_BYTE leaves -/

theorem RegisterFile.sameBut_setViewByte (r : RegisterFile) (f : Family) (n j : Nat) (d : Byte)
    (hn : n < r.count f) : r.SameBut (r.setViewByte f n j d) f.bank n :=
  r.sameBut_write f.bank n _ hn

/-- The slot that SET_BYTE leaves, bit by bit. -/
theorem RegisterFile.getLsbD_read_setViewByte (r : RegisterFile) (f : Family) (n j : Nat) (d : Byte) (k : Nat)
    (hn : n < r.count f) (hk : k < f.bank.width) :
    ((r.setViewByte f n j d).read f.bank n).getLsbD k =
      if 8 * j ≤ k ∧ k < 8 * j + 8 then d.getLsbD (k - 8 * j) else (r.read f.bank n).getLsbD k := by
  rw [RegisterFile.setViewByte, r.read_write_same _ _ _ hn, getLsbD_putByte _ _ _ _ hk]

/-! ### The obligations of 42_byte_access.md -/

/-- Settles O3, clause by clause: the encoding, the two errors, the byte. -/
theorem getByteFollowsItsRule : Obligations.GetByteFollowsItsRule := by
  intro f n j s
  refine ⟨fun hn hj => ?encoding, fun hn => ?slot, fun hn hj => ?index, fun hn hj =>
    ⟨_, exec_getByte_ok hn hj, s.regs.getLsbD_readData_viewByte f n j⟩⟩
  case encoding => exact Laws.decode_ofNat_fields (.getByte f n j) hn hj
  case slot => rw [exec_getByte_eq, State.answer_checkIndexed_slot j (f.aw / 8) _ hn]
  case index => rw [exec_getByte_eq, State.answer_checkIndexed_index _ hn hj]

/-- Settles O4: the slot changes in the eight bits that `getLsbD_read_setViewByte` names, and the write is framed. -/
theorem setByteFollowsItsRule : Obligations.SetByteFollowsItsRule := by
  intro f n j s
  refine ⟨fun hn hj => ?encoding, fun hn => ?slot, fun hn hj => ?index, fun hn hj =>
    ⟨_, exec_setByte_ok hn hj, rfl, ⟨rfl, rfl, rfl⟩, ?frame, fun k hk => ?bits⟩⟩
  case encoding => exact Laws.decode_ofNat_fields (.setByte f n j) hn hj
  case slot => rw [exec_setByte_eq, State.answer_checkIndexed_slot j (f.aw / 8) _ hn]
  case index => rw [exec_setByte_eq, State.answer_checkIndexed_index _ hn hj]
  case frame => exact s.regs.sameBut_setViewByte f n j _ hn
  case bits =>
    rw [State.done_regs, State.withRegs_regs, s.regs.getLsbD_read_setViewByte f n j _ k hn hk]
    by_cases hbyte : 8 * j ≤ k ∧ k < 8 * j + 8
    · rw [if_pos hbyte, if_pos hbyte, getLsbD_byteOperand _ _ (by omega)]
      rfl
    · rw [if_neg hbyte, if_neg hbyte]

end Sys2Proof.Machine
end

section
/-! PROOFS. GET_VALUE and SET_VALUE: encoding, error, and the view they read and write (43_value_access.md R160, R161;
10_state.md R37). -/

namespace Sys2Proof.Laws

/-- A request with IDX = 0 is read back from the sum of its three other fields. -/
theorem decode_ofNat_fields_of_idx_eq_zero {i : Instr} (hslot : i.slot ≤ 255) (hidx : i.idx = 0) :
    decode (BitVec.ofNat 32 (i.op + 16 * i.fam + 256 * i.slot)) = .request i := by
  have h := decode_ofNat_fields i hslot (hidx.trans_le (Nat.zero_le 1023))
  rwa [hidx, Nat.mul_zero, Nat.add_zero] at h

end Sys2Proof.Laws

namespace Sys2Proof.Machine

/-- The one error of a value access, whatever its effect would be. -/
theorem State.answer_checkValue_slot {s : State} {f : Family} {n : Nat} (ok : State) (hn : s.regs.count f ≤ n) :
    s.answer (s.checkValue f n) ok = .next { s with output := ⟨true, 2, 0⟩ } := by
  rw [State.checkValue_slot hn]; rfl

/-- The view that GET_VALUE answers, and the zeros above it (30_encoding.md R90). -/
theorem RegisterFile.getLsbD_readData_aliasRead (r : RegisterFile) (f : Family) (n k : Nat) :
    (readData (r.aliasRead f n)).getLsbD k = (decide (k < f.aw) && (r.read f.bank n).getLsbD k) := by
  rw [getLsbD_readData _ f.aw_le_wide, RegisterFile.getLsbD_aliasRead]

/-! ### The obligations of 43_value_access.md -/

/-- Settles O5, clause by clause: the encoding, the error, the zero-extended view. -/
theorem getValueFollowsItsRule : Obligations.GetValueFollowsItsRule := by
  intro f n s
  refine ⟨fun hn => ?encoding, fun hn => ?slot, fun hn =>
    ⟨_, exec_getValue_ok hn, s.regs.getLsbD_readData_aliasRead f n⟩⟩
  case encoding => exact Laws.decode_ofNat_fields_of_idx_eq_zero (i := .getValue f n) hn rfl
  case slot => rw [exec_getValue_eq, State.answer_checkValue_slot _ hn]

/-- Settles O6: the slot changes below the alias width alone, as `getLsbD_read_aliasWrite` says, and the write is
framed. -/
theorem setValueFollowsItsRule : Obligations.SetValueFollowsItsRule := by
  intro f n s
  refine ⟨fun hn => ?encoding, fun hn => ?slot, fun hn =>
    ⟨_, exec_setValue_ok hn, rfl, ⟨rfl, rfl, rfl⟩, ?frame, fun k hk => ?bits⟩⟩
  case encoding => exact Laws.decode_ofNat_fields_of_idx_eq_zero (i := .setValue f n) hn rfl
  case slot => rw [exec_setValue_eq, State.answer_checkValue_slot _ hn]
  case frame => exact s.regs.sameBut_aliasWrite f n _ hn
  case bits =>
    rw [State.done_regs, State.withRegs_regs, s.regs.getLsbD_read_aliasWrite f n _ k hn hk]
    by_cases hview : k < f.aw
    · rw [if_pos hview, if_pos hview, getLsbD_valueOperand f _ k hview]
      rfl
    · rw [if_neg hview, if_neg hview]

end Sys2Proof.Machine
end

section
/-! PROOFS. RESET, and a caller's whole-state save and restore (44_control.md R170, R172). -/

namespace Sys2Proof

/-- The family whose view is the whole slot of a bank: the one that a save and a restore use (44_control.md R172). -/
def Bank.wholeView : Bank → Family
  | .g => .gpr64
  | .flags => .flags
  | .ip => .ip
  | .v => .vec512

theorem Bank.wholeView_bank (b : Bank) : b.wholeView.bank = b := by cases b <;> rfl

end Sys2Proof

namespace Sys2Proof.Laws

/-- The only command word of RESET (44_control.md R170). -/
theorem decode_eq_reset_iff (w : CmdWord) : decode w = .request .reset ↔ w = 6 := by
  have hencode : encode .reset = 6 := by decide
  constructor
  · intro h
    obtain ⟨-, hw⟩ := encodeOfDecodeIsTheWord w .reset h
    exact hw.symm.trans hencode
  · rintro rfl
    exact hencode ▸ decodeOfEncodeIsTheRequest .reset rfl

end Sys2Proof.Laws

namespace Sys2Proof.Machine

/-! ### Fields as wide as their value -/

theorem takeField_whole {w : Nat} (v : BitVec w) : takeField v 0 w = v := by
  simp [takeField]

theorem putField_whole {w : Nat} (v d : BitVec w) : putField v 0 d = d := by
  rw [← takeField_whole (putField v 0 d), takeField_putField v 0 d (Nat.zero_add w).le]

theorem takeField_readData {w : Nat} (x : BitVec w) (hw : w ≤ 512) : takeField (readData x) 0 w = x := by
  apply BitVec.eq_of_getLsbD_eq
  intro k hk
  rw [getLsbD_takeField, getLsbD_readData x hw, Nat.zero_add]
  simp [hk]

/-! ### A slot read and written through its whole view -/

theorem RegisterFile.count_wholeView (r : RegisterFile) (b : Bank) : r.count b.wholeView = r.slots b :=
  congrArg r.slots b.wholeView_bank

theorem RegisterFile.readData_aliasRead_wholeView (r : RegisterFile) (b : Bank) (n : Nat) :
    readData (r.aliasRead b.wholeView n) = readData (r.read b n) := by
  cases b <;> exact congrArg readData (takeField_whole _)

/-- Write data made from a slot's value writes that value into the whole slot. -/
theorem RegisterFile.aliasWrite_wholeView (r : RegisterFile) (b : Bank) (n : Nat) (x : BitVec b.width) :
    r.aliasWrite b.wholeView n (valueOperand b.wholeView (readData x)) = r.write b n x := by
  have hput (v : BitVec b.width) : putField v 0 (takeField (readData x) 0 b.width) = x := by
    rw [takeField_readData x b.width_le, putField_whole]
  cases b <;> exact congrArg (r.write _ n) (hput _)

theorem RegisterFile.SameSize.trans {r r' r'' : RegisterFile} (h : r.SameSize r') (h' : r'.SameSize r'') :
    r.SameSize r'' := by
  obtain ⟨hg, hv⟩ := h
  obtain ⟨hg', hv'⟩ := h'
  exact ⟨hg'.trans hg, hv'.trans hv⟩

/-- A slot given its value in r adds itself to the slots that agree with r, and takes none away. -/
theorem RegisterFile.read_write_toward (q : RegisterFile) {r : RegisterFile} {b c : Bank} {n m : Nat}
    (hn : n < q.slots b) (hm : m < q.slots c) (h : (c, m) ≠ (b, n) → q.read c m = r.read c m) :
    (q.write b n (r.read b n)).read c m = r.read c m := by
  by_cases hp : (c, m) = (b, n)
  · obtain ⟨rfl, rfl⟩ := Prod.mk.inj hp
    exact q.read_write_same c m _ hn
  · have hother : c ≠ b ∨ m ≠ n := by rwa [Prod.mk.injEq, not_and_or] at hp
    exact (q.read_write_other b c n m _ hn hm hother).trans (h hp)

/-! ### The slots of a register file, and the requests that read and write one -/

/-- Every slot of every bank, in the order of a save and a restore (44_control.md R172). -/
def RegisterFile.slotList (r : RegisterFile) : List (Bank × Nat) :=
  (List.range r.gpr.length).map (Bank.g, ·) ++ [(.flags, 0)] ++ [(.ip, 0)] ++
    (List.range r.vec.length).map (Bank.v, ·)

/-- The read of one slot in a save. -/
def readSlot (p : Bank × Nat) : Request := { instr := .getValue p.1.wholeView p.2, wdata := 0 }

/-- The write in a restore that gives one slot its value in r. -/
def RegisterFile.writeSlot (r : RegisterFile) (p : Bank × Nat) : Request :=
  { instr := .setValue p.1.wholeView p.2, wdata := readData (r.read p.1 p.2) }

theorem RegisterFile.slotList_length (r : RegisterFile) :
    r.slotList.length = r.gpr.length + r.vec.length + 2 := by
  simp only [RegisterFile.slotList, List.length_append, List.length_map, List.length_range, List.length_singleton]
  omega

theorem RegisterFile.mem_slotList (r : RegisterFile) (b : Bank) (n : Nat) :
    (b, n) ∈ r.slotList ↔ n < r.slots b := by
  cases b <;> simp [RegisterFile.slotList, RegisterFile.slots]

/-- The writes of consecutive slots, slot by slot. -/
theorem setSlots_eq_map {w : Nat} (f : Family) (n : Nat) (xs : List (BitVec w)) :
    setSlots f n xs =
      (List.range xs.length).map fun k => { instr := .setValue f (n + k), wdata := readData (xs.getD k 0) } := by
  induction xs generalizing n with
  | nil => rfl
  | cons x xs ih =>
    rw [setSlots, ih, List.length_cons, List.range_succ_eq_map]
    simp [Nat.add_assoc, Nat.add_comm 1]

theorem saveRequests_eq (r : RegisterFile) : saveRequests r = r.slotList.map readSlot := by
  simp only [RegisterFile.slotList, List.map_append, List.map_map]
  rfl

theorem restoreRequests_eq (r : RegisterFile) : restoreRequests r = r.slotList.map r.writeSlot := by
  simp only [restoreRequests, setSlots_eq_map, Nat.zero_add, RegisterFile.slotList, List.map_append, List.map_map]
  rfl

/-- Every slot of a block can be encoded (00_scope.md R6; 30_encoding.md R85). -/
theorem RegisterFile.slotFits_of_wf {r : RegisterFile} (h : r.wf = true) {b : Bank} {n : Nat} (hn : n < r.slots b) :
    slotFits n = true := by
  simp only [RegisterFile.wf, Config.countOk, Bool.and_eq_true, decide_eq_true_eq] at h
  obtain ⟨⟨-, hg⟩, -, hv⟩ := h
  have hslots : r.slots b ≤ 255 := by cases b <;> simp [RegisterFile.slots, hg, hv]
  exact decide_eq_true (hn.le.trans hslots)

/-! ### Runs of reads and of writes -/

/-- The read of one slot answers it whole, changes no register, and leaves the next requests before the block. -/
theorem run_readSlot {s : State} {b : Bank} {n : Nat} (k : Nat) (ps : List PortIn) (hwf : s.regs.wf = true)
    (hn : n < s.regs.slots b) :
    ∃ t : State, t.regs = s.regs ∧ t.output = ⟨true, 0, readData (s.regs.read b n)⟩ ∧
      Host.Core.run core (k + 1) (s.present ((readSlot (b, n)).portIn :: ps)) = Host.Core.run core k (t.present ps) := by
  have hcount : n < s.regs.count b.wholeView := by rwa [s.regs.count_wholeView]
  refine ⟨_, ?regs, ?output, run_present_cons k (RegisterFile.slotFits_of_wf hwf hn) (exec_getValue_ok hcount)⟩
  case regs => rfl
  case output => rw [State.respond_output, State.present_regs, RegisterFile.readData_aliasRead_wholeView]; rfl

/-- The write of one slot gives it its value in r, and leaves the next requests before the block. -/
theorem run_writeSlot {s : State} {b : Bank} {n : Nat} (r : RegisterFile) (k : Nat) (ps : List PortIn)
    (hwf : s.regs.wf = true) (hn : n < s.regs.slots b) :
    ∃ t : State, t.regs = s.regs.write b n (r.read b n) ∧
      Host.Core.run core (k + 1) (s.present ((r.writeSlot (b, n)).portIn :: ps)) =
        Host.Core.run core k (t.present ps) := by
  have hcount : n < s.regs.count b.wholeView := by rwa [s.regs.count_wholeView]
  exact ⟨_, s.regs.aliasWrite_wholeView b n (r.read b n),
    run_present_cons k (RegisterFile.slotFits_of_wf hwf hn) (exec_setValue_ok hcount)⟩

/-- In a run of reads, the read at place k answers the slot at place k of the list. -/
theorem run_readSlots {ls : List (Bank × Nat)} {k : Nat} {b : Bank} {n : Nat} {s : State} (hwf : s.regs.wf = true)
    (hls : ∀ c m, (c, m) ∈ ls → m < s.regs.slots c) (hk : ls[k]? = some (b, n)) :
    ∃ t : State, Host.Core.run core (k + 1) (s.present ((ls.map readSlot).map Request.portIn)) = .next t ∧
      t.regs = s.regs ∧ t.output = ⟨true, 0, readData (s.regs.read b n)⟩ := by
  induction ls generalizing k s with
  | nil => cases hk
  | cons p ls ih =>
    have hread (k : Nat) :=
      run_readSlot k ((ls.map readSlot).map Request.portIn) hwf (hls p.1 p.2 List.mem_cons_self)
    cases k with
    | zero =>
      obtain rfl : p = (b, n) := by simpa using hk
      obtain ⟨t, hregs, hout, hrun⟩ := hread 0
      exact ⟨_, hrun, hregs, hout⟩
    | succ k =>
      obtain ⟨t, hregs, -, hrun⟩ := hread (k + 1)
      obtain ⟨u, hu, hkeep, hout⟩ := ih (s := t) (hregs ▸ hwf)
        (fun c m hm => hregs ▸ hls c m (List.mem_cons_of_mem p hm)) (by simpa using hk)
      exact ⟨u, hrun.trans hu, hkeep.trans hregs, hregs ▸ hout⟩

/-- A run of writes leaves the registers of r once every slot that differs from r is among those still to write. -/
theorem run_writeSlots {r : RegisterFile} {ls : List (Bank × Nat)} {s : State} (hwf : r.wf = true)
    (hsize : r.SameSize s.regs) (hls : ∀ c m, (c, m) ∈ ls → m < r.slots c)
    (hrest : ∀ c m, m < r.slots c → (c, m) ∉ ls → s.regs.read c m = r.read c m) :
    ∃ t : State, Host.Core.run core ls.length (s.present ((ls.map r.writeSlot).map Request.portIn)) = .next t ∧
      t.regs = r := by
  induction ls generalizing s with
  | nil => exact ⟨_, rfl, r.ext_read s.regs hsize fun c m hm => hrest c m hm List.not_mem_nil⟩
  | cons p ls ih =>
    obtain ⟨b, n⟩ := p
    have hn : n < s.regs.slots b := by
      rw [hsize.slots]
      exact hls b n List.mem_cons_self
    obtain ⟨t, hregs, hrun⟩ :=
      run_writeSlot r ls.length ((ls.map r.writeSlot).map Request.portIn) (hsize.wf.trans hwf) hn
    have hsizet : r.SameSize t.regs := hregs ▸ hsize.trans (s.regs.sameSize_write b n _)
    have hrestt : ∀ c m, m < r.slots c → (c, m) ∉ ls → t.regs.read c m = r.read c m := by
      intro c m hm hmem
      rw [hregs]
      exact s.regs.read_write_toward hn (by rwa [hsize.slots]) fun hne => hrest c m hm (by simp [hne, hmem])
    obtain ⟨u, hu, hur⟩ := ih hsizet (fun c m hm => hls c m (List.mem_cons_of_mem _ hm)) hrestt
    exact ⟨u, hrun.trans hu, hur⟩

/-! ### The obligations of 44_control.md -/

/-- Settles O7: the word by the round trip of the command word, the effect by what zeroing leaves in a slot. -/
theorem resetFollowsItsRule : Obligations.ResetFollowsItsRule := by
  intro s
  refine ⟨Laws.decode_eq_reset_iff, _, exec_reset_eq s, rfl, ⟨rfl, rfl, rfl⟩, s.regs.sameSize_zeroed, fun b n _ => ?_⟩
  exact s.regs.read_zeroed b n

/-- Settles O37: a save and a restore go through one list of slots, and every slot read before leaves the registers as
they are. -/
theorem saveReadsEveryRegister : Obligations.SaveReadsEveryRegister := by
  intro s hwf
  rw [saveRequests_eq, restoreRequests_eq, List.length_map, List.length_map, s.regs.slotList_length]
  refine ⟨rfl, rfl, fun k q hq => ?_⟩
  rw [List.getElem?_map, Option.map_eq_some_iff] at hq
  obtain ⟨⟨b, n⟩, hk, rfl⟩ := hq
  exact run_readSlots hwf (fun c m => (s.regs.mem_slotList c m).mp) hk

/-- Settles O38: the slots of r are all the slots there are, so none is left that could differ. -/
theorem restoreWritesEveryRegister : Obligations.RestoreWritesEveryRegister := by
  intro s r hwf hsize
  rw [restoreRequests_eq, List.length_map]
  exact run_writeSlots hwf hsize (fun c m => (r.mem_slotList c m).mp)
    fun c m hm hmem => absurd ((r.mem_slotList c m).mpr hm) hmem

end Sys2Proof.Machine
end

section
/-! PROOFS. Errors and statuses: the checking order, what a failed request leaves, and that no step stops
(60_exceptions.md R182 to R192). -/

namespace Sys2Proof.Machine

/-! ### The steps that perform no request -/

theorem step_of_rst {s : State} (hr : s.input.rst = true) : step s = .next s.resetStep := by
  simp [step, servePort, hr]

theorem step_of_illegal {s : State} {why : IllegalReason} (hr : s.input.rst = false) (hv : s.input.reqValid = true)
    (hd : decode s.input.reqCmd = .illegal why) : step s = .next s.illegalStep := by
  simp [step, servePort, hr, hv, hd]

/-! ### The status of a request is what its checks find -/

/-- The checks of a request (60_exceptions.md R187); RESET has none. -/
def State.check (s : State) : Instr → Option ErrorKind
  | .getBit f n i => s.checkIndexed f n i f.aw
  | .setBit f n i => s.checkIndexed f n i f.aw
  | .getByte f n j => s.checkIndexed f n j (f.aw / 8)
  | .setByte f n j => s.checkIndexed f n j (f.aw / 8)
  | .getValue f n => s.checkValue f n
  | .setValue f n => s.checkValue f n
  | .reset => none

/-- The status that reports what the checks found (60_exceptions.md R182). -/
def checkStatus (e : Option ErrorKind) : StatusCode := e.elim okCode ErrorKind.code

theorem State.answer_status {s ok : State} (e : Option ErrorKind) (hok : ok.output.rspStatus = okCode) :
    ∃ t, s.answer e ok = .next t ∧ t.output.rspStatus = checkStatus e := by
  cases e with
  | none => exact ⟨ok, rfl, hok⟩
  | some k => exact ⟨s.raise k, rfl, rfl⟩

/-- Every request is answered, with the status of its checks. -/
theorem exec_status (i : Instr) (s : State) :
    ∃ t, exec i s = .next t ∧ t.output.rspStatus = checkStatus (s.check i) := by
  cases i with
  | reset => exact ⟨_, exec_reset_eq s, rfl⟩
  | _ => exact State.answer_status _ rfl

/-! ### The status read off the fields of the command word -/

theorem checkStatus_checkIndexed (s : State) (f : Family) (n i limit : Nat) :
    checkStatus (s.checkIndexed f n i limit) = if s.regs.count f ≤ n then 2 else if limit ≤ i then 1 else 0 := by
  unfold State.checkIndexed
  split_ifs <;> rfl

theorem checkStatus_checkValue (s : State) (f : Family) (n : Nat) :
    checkStatus (s.checkValue f n) = if s.regs.count f ≤ n then 2 else 0 := by
  unfold State.checkValue
  split_ifs <;> rfl

theorem portStatus_of_illegal {w : CmdWord} {why : IllegalReason} (r : RegisterFile) (h : decode w = .illegal why) :
    portStatus r w = 4 := by
  simp [portStatus, h]

/-- The fields that portStatus reads are those of the request, and each operation has the limit of its own check. -/
theorem portStatus_of_request {w : CmdWord} {i : Instr} (s : State) (h : decode w = .request i) :
    portStatus s.regs w = checkStatus (s.check i) := by
  obtain ⟨hop, hfam, hslot, hidx, -⟩ := Laws.decode_eq_request_iff.mp h
  cases i with
  | reset => simp [portStatus, h, State.check, checkStatus, okCode]
  | _ f =>
    have hf : familyOf (famField w) = some f := Laws.familyOf_eq_some_iff.mpr hfam.symm
    simp [portStatus, h, hf, hop, hslot, hidx, Instr.op, Instr.slot, Instr.idx, State.check,
      checkStatus_checkIndexed, checkStatus_checkValue]

theorem portStatus_of_sameSize {r r' : RegisterFile} (h : r.SameSize r') (w : CmdWord) :
    portStatus r' w = portStatus r w := by
  simp only [portStatus, h.count]

/-- Whatever its command word is, a request presented with rst = 0 is answered with the status of R187. -/
theorem step_answers {s : State} (hr : s.input.rst = false) (hv : s.input.reqValid = true) :
    ∃ t, step s = .next t ∧ t.output.rspValid = true ∧ t.output.rspStatus = portStatus s.regs s.input.reqCmd := by
  cases hd : decode s.input.reqCmd with
  | illegal why => exact ⟨_, step_of_illegal hr hv hd, rfl, (portStatus_of_illegal s.regs hd).symm⟩
  | request i =>
    obtain ⟨u, hu, hstatus⟩ := exec_status i s
    have hstep : step s = .next u.nextInput := by rw [step_of_performs ⟨hr, hv, hd⟩, hu, advancePort]
    have hvalid : u.output.rspValid = true := exec_rspValid hu
    exact ⟨_, hstep, hvalid, hstatus.trans (portStatus_of_request s hd).symm⟩

theorem step_status {s t : State} (h : step s = .next t) (hr : s.input.rst = false) (hv : s.input.reqValid = true) :
    t.output.rspStatus = portStatus s.regs s.input.reqCmd := by
  obtain ⟨u, hu, -, hstatus⟩ := step_answers hr hv
  obtain rfl := Host.Outcome.next.inj (h.symm.trans hu)
  exact hstatus

theorem PortOut.status_of_legal {o : PortOut} (h : o.legal = true) (hv : o.rspValid = true) :
    o.rspStatus = 0 ∨ o.rspStatus = 1 ∨ o.rspStatus = 2 ∨ o.rspStatus = 4 := by
  simp only [PortOut.legal, okCode, ErrorKind.code, hv, Bool.not_true, Bool.false_or, Bool.or_eq_true,
    Bool.and_eq_true, beq_iff_eq] at h
  tauto

/-! ### What a failed request leaves -/

theorem exec_eq_raise_of_error {i : Instr} {s t : State} (h : exec i s = .next t) (he : t.output.rspStatus ≠ 0) :
    ∃ k, t = s.raise k := by
  rcases exec_cases h with ⟨k, -, rfl⟩ | ⟨d, rfl⟩ | ⟨f, x, -, -, rfl⟩ | ⟨-, rfl⟩
  case inl => exact ⟨k, rfl⟩
  all_goals exact absurd rfl he

/-- All that a failed request does is raise its error (60_exceptions.md R188). -/
theorem step_eq_raise_of_error {s t : State} (h : step s = .next t) (hv : t.output.rspValid = true)
    (he : t.output.rspStatus ≠ 0) : ∃ k, t = (s.raise k).nextInput := by
  rcases step_cases h with ⟨-, rfl⟩ | ⟨i, u, -, hu, rfl⟩ | ⟨-, -, -, rfl⟩ | ⟨-, -, rfl⟩
  case inl => cases hv
  case inr.inl =>
    obtain ⟨k, rfl⟩ := exec_eq_raise_of_error hu he
    exact ⟨k, rfl⟩
  case inr.inr.inl => exact ⟨_, rfl⟩
  case inr.inr.inr => cases hv

/-- A request does not read the last response, and answers over it. -/
theorem State.answer_raise (s ok : State) (k : ErrorKind) (e : Option ErrorKind) :
    (s.raise k).answer e ok = s.answer e ok := by
  cases e <;> rfl

theorem exec_raise (i : Instr) (s : State) (k : ErrorKind) : exec i (s.raise k) = exec i s := by
  cases i with
  | reset => rfl
  | _ => exact s.answer_raise _ k _

/-- Nor does a step read the last response: the next step is as if no error had been raised. -/
theorem step_raise (s : State) (k : ErrorKind) : step (s.raise k) = step s := by
  simp only [step, servePort, State.raise_input, exec_raise]
  rfl

/-! ### No step stops -/

theorem step_next (s : State) : ∃ t, step s = .next t := by
  cases hr : s.input.rst with
  | true => exact ⟨_, step_of_rst hr⟩
  | false =>
    cases hv : s.input.reqValid with
    | false => exact ⟨_, step_of_idle hr hv⟩
    | true =>
      obtain ⟨t, ht, -, -⟩ := step_answers hr hv
      exact ⟨t, ht⟩

/-! ### The obligations of 60_exceptions.md -/

/-- Settles O18: an illegal word has its own status, and the checks of a request are those its fields stand for. -/
theorem statusFollowsTheCheckingOrder : Obligations.StatusFollowsTheCheckingOrder :=
  fun _ => step_answers

/-- Settles O19: the state after a failed request is the state before it with the error raised, and no step reads the
last response. -/
theorem failedRequestLeavesNoTrace : Obligations.FailedRequestLeavesNoTrace := by
  intro s t h hv he
  obtain ⟨k, rfl⟩ := step_eq_raise_of_error h hv he
  exact ⟨rfl, rfl, step_raise s.nextInput k⟩

/-- Settles O20: a step leaves a legal response, whatever the port showed before. -/
theorem portAnswersOnlyItsOwnCodes : Obligations.PortAnswersOnlyItsOwnCodes :=
  fun _ _ h => PortOut.status_of_legal (step_output_legal h)

/-- Settles O21, by induction on the number of steps. -/
theorem noRunEverStops : Obligations.NoRunEverStops := by
  intro k
  induction k with
  | zero => exact fun s => ⟨s, rfl⟩
  | succ k ih =>
    intro s
    obtain ⟨t, ht⟩ := step_next s
    obtain ⟨u, hu⟩ := ih t
    exact ⟨u, (run_succ_of_next core k ht).trans hu⟩

/-- Settles O30: both steps answer, since their inputs are equal, and the status of R187 reads only the sizes. -/
theorem statusIgnoresRegisterContents : Obligations.StatusIgnoresRegisterContents := by
  intro s s' t t' hin hsize h h' hvalid
  have hinput : s.input.reqValid = true ∧ s.input.rst = false := by
    simpa [responseExactlyForRequestWithoutReset s t h] using hvalid
  obtain ⟨hv, hr⟩ := hinput
  have hr' : s'.input.rst = false := hin ▸ hr
  have hv' : s'.input.reqValid = true := hin ▸ hv
  refine ⟨by simp [responseExactlyForRequestWithoutReset s' t' h', hr', hv'], ?_⟩
  calc t'.output.rspStatus = portStatus s'.regs s'.input.reqCmd := step_status h' hr' hv'
    _ = portStatus s.regs s.input.reqCmd := by rw [hin, portStatus_of_sameSize hsize]
    _ = t.output.rspStatus := (step_status h hr hv).symm

/-- Settles O14: an illegal word raises its error and moves the port on. -/
theorem stepAnswersAnIllegalWord : Obligations.StepAnswersAnIllegalWord :=
  fun _ _ => step_of_illegal

end Sys2Proof.Machine
end

section
/-! PROOFS. Reset: what the two kinds of reset leave, and any number of them in a row (70_reset_and_hazards.md R210 to
R213). -/

namespace Sys2Proof.Machine

/-! ### The registers before the first step -/

@[simp] theorem RegisterFile.zeroed_powerUp (ngpr nvec : Nat) :
    (RegisterFile.powerUp ngpr nvec).zeroed = .powerUp ngpr nvec := by
  simp [RegisterFile.zeroed, RegisterFile.powerUp]

theorem RegisterFile.read_powerUp (ngpr nvec : Nat) (b : Bank) (n : Nat) :
    (RegisterFile.powerUp ngpr nvec).read b n = 0 := by
  rw [← RegisterFile.zeroed_powerUp, RegisterFile.read_zeroed]

/-! ### One reset, of either kind -/

/-- The inputs that reset the block: rst = 1, or the RESET command presented (70_reset_and_hazards.md R210). -/
def PortIn.Resets (p : PortIn) : Prop := p.rst = true ∨ (p.reqValid = true ∧ p.reqCmd = 6)

/-- The two kinds leave the same registers, whatever each shows on the port (70_reset_and_hazards.md R210). -/
theorem step_of_resets {p : PortIn} (s : State) (ps : List PortIn) (hp : p.Resets) :
    ∃ t : State, t.regs = s.regs.zeroed ∧ step (s.present (p :: ps)) = .next (t.present ps) := by
  cases hr : p.rst with
  | true => exact ⟨s.zeroRegs.noResponse, rfl, step_of_rst hr⟩
  | false =>
    obtain ⟨hv, hcmd⟩ : p.reqValid = true ∧ p.reqCmd = 6 := hp.resolve_left (by simp [hr])
    have hperf : (s.present (p :: ps)).Performs .reset := ⟨hr, hv, (Laws.decode_eq_reset_iff _).mpr hcmd⟩
    exact ⟨s.zeroRegs.done, rfl, (step_of_performs hperf).trans (congrArg advancePort (exec_reset_eq _))⟩

/-! ### Resets in a row -/

/-- A reset leaves its zeroed registers to the run over the inputs after it. -/
theorem run_reset_cons {p : PortIn} (s : State) (ps : List PortIn) (hp : p.Resets) :
    ∃ t : State, t.regs = s.regs.zeroed ∧
      Host.Core.run core (p :: ps).length (s.present (p :: ps)) = Host.Core.run core ps.length (t.present ps) := by
  obtain ⟨t, hregs, hstep⟩ := step_of_resets s ps hp
  exact ⟨t, hregs, run_succ_of_next core ps.length hstep⟩

/-- Once the registers are zero, resets change nothing in them (70_reset_and_hazards.md R212). -/
theorem run_resets_of_zeroed {s : State} {ps : List PortIn} (hz : s.regs.zeroed = s.regs)
    (hps : ∀ p ∈ ps, p.Resets) :
    ∃ t : State, Host.Core.run core ps.length (s.present ps) = .next t ∧ t.regs = s.regs := by
  induction ps generalizing s with
  | nil => exact ⟨_, rfl, rfl⟩
  | cons p ps ih =>
    obtain ⟨hp, htail⟩ := List.forall_mem_cons.mp hps
    obtain ⟨t, hregs, hrun⟩ := run_reset_cons s ps hp
    have hkeep : t.regs = s.regs := hregs.trans hz
    obtain ⟨u, hu, huregs⟩ := ih (s := t) (by rw [hkeep, hz]) htail
    exact ⟨u, hrun.trans hu, huregs.trans hkeep⟩

/-! ### The obligations of 70_reset_and_hazards.md -/

/-- Settles O32: the first reset zeroes the registers, and those after it find them zero. -/
theorem resetsInARowLeaveThePowerUpState : Obligations.ResetsInARowLeaveThePowerUpState := by
  intro s ps hne hps
  cases ps with
  | nil => exact absurd rfl hne
  | cons p ps =>
    obtain ⟨hp, htail⟩ := List.forall_mem_cons.mp hps
    obtain ⟨t, hregs, hrun⟩ := run_reset_cons s ps hp
    obtain ⟨u, hu, huregs⟩ := run_resets_of_zeroed (s := t) (by rw [hregs, s.regs.zeroed_zeroed]) htail
    exact ⟨u, hrun.trans hu, huregs.trans hregs⟩

/-- Settles O16: the step with rst = 1 zeroes the registers, and those before the first step are zero already. -/
theorem powerOnResetZeroesEveryRegister : Obligations.PowerOnResetZeroesEveryRegister :=
  ⟨fun s hr => ⟨s.resetStep, step_of_rst hr, rfl, s.regs.sameSize_zeroed, fun b n _ => s.regs.read_zeroed b n⟩,
    fun ngpr nvec b n _ => RegisterFile.read_powerUp ngpr nvec b n⟩

end Sys2Proof.Machine
end

section
/-! PROOFS. The order in which the steps take the inputs of the caller's list (20_memory.md R68; log 3). -/

namespace Sys2Proof.Machine

/-- Whatever a step does, it leaves the caller's list alone until it ends by moving the port on (00_scope.md R8). -/
theorem step_eq_nextInput {s t : State} (h : step s = .next t) : ∃ u : State, u.later = s.later ∧ t = u.nextInput := by
  rcases step_cases h with ⟨-, rfl⟩ | ⟨i, u, -, hu, rfl⟩ | ⟨-, -, -, rfl⟩ | ⟨-, -, rfl⟩
  case inl => exact ⟨s.zeroRegs.noResponse, rfl, rfl⟩
  case inr.inl => exact ⟨u, exec_later hu, rfl⟩
  case inr.inr.inl => exact ⟨s.raise .illegalRequest, rfl, rfl⟩
  case inr.inr.inr => exact ⟨s.noResponse, rfl, rfl⟩

/-- Settles O22: the port moves on over the list that the step found. -/
theorem stepTakesInputsInOrder : Obligations.StepTakesInputsInOrder := by
  intro s t h
  obtain ⟨u, hlater, rfl⟩ := step_eq_nextInput h
  exact ⟨by rw [u.nextInput_input, hlater], by rw [u.nextInput_later, hlater]⟩

end Sys2Proof.Machine
end
